-- ==== Sys2Proof/Word.lean ====
section
/-! DEFINITION. The block's words: characters, registers, bus addresses. -/

namespace Sys2Proof

/-- A character: an 8-bit code (00_scope.md R8). -/
abbrev Byte := BitVec 8

/-- A register or a command word: 32 bits (00_scope.md R7). -/
abbrev Word := BitVec 32

/-- A byte address of the host bus space, relative to the block's base address (20_memory.md R50). -/
abbrev Addr := BitVec 26

end Sys2Proof
end

