-- ==== Sys2Proof/Syntax.lean ====
section
/-! DEFINITION. The commands of the block, one constructor per row of the opcode table (30_encoding.md R87). -/

namespace Sys2Proof

/-- A command. None carries an operand: operands are registers (30_encoding.md R86, R89). -/
inductive Instr where
  /-- CLEAR, OP 0x1: empty both buffers, clear the error (R141). -/
  | clear
  /-- IAPPEND, OP 0x2: append a character to IBUF (R142). -/
  | iappend
  /-- OAPPEND, OP 0x3: append a character to OBUF (R143). -/
  | oappend
  /-- PEEK, OP 0x4: next IBUF character to VALUE, no advance (R144). -/
  | peek
  /-- CONSUME, OP 0x5: next IBUF character to VALUE, advance (R145). -/
  | consume
  /-- ATEND, OP 0x6: VALUE tells whether IBUF is exhausted (R146). -/
  | atend
  /-- EXPAND, OP 0x7: back-reference copy inside OBUF (R148). -/
  | expand
  /-- XFER, OP 0x8: move OBUF to IBUF (R149). -/
  | xfer
  /-- VENC, OP 0x9: encode VALUE, appended to OBUF (R110). -/
  | venc
  /-- VDEC, OP 0xA: decode a variable-length value from IBUF into VALUE (R115). -/
  | vdec
  /-- DEFLATE, OP 0xB: compress unread IBUF into OBUF (R180). -/
  | deflate
  /-- INFLATE, OP 0xC: decompress unread IBUF into OBUF (R210). -/
  | inflate
  deriving DecidableEq, Repr

end Sys2Proof
end

