-- ==== Sys2Proof/WellFormed.lean ====
section
/-! DEFINITION. Well-formedness. A command has no operand, so every command is well formed; what can be
ill formed is the 32-bit command word (30_encoding.md R86, R88). -/

namespace Sys2Proof

/-- The `OP` field of a command word, bits [3:0] (R86). -/
def opField (w : Word) : Nat := w.toNat % 16

/-- The reserved field of a command word, bits [31:4] (R86). -/
def reservedField (w : Word) : Nat := w.toNat / 16

/-- `OP` is one of 0x1..0xC (R86, R88). -/
def opLegal (w : Word) : Bool := decide (1 ≤ opField w) && decide (opField w ≤ 12)

/-- The reserved bits are 0 (R86, R88). -/
def reservedClear (w : Word) : Bool := decide (reservedField w = 0)

/-- A command word of the format of R86. -/
def wordWellFormed (w : Word) : Bool := opLegal w && reservedClear w

/-- A command carries no field a check could refuse (R86: operands are never in the command word). -/
def Instr.wellFormed (i : Instr) : Bool :=
  match i with
  | .clear | .iappend | .oappend | .peek | .consume | .atend
  | .expand | .xfer | .venc | .vdec | .deflate | .inflate => true

end Sys2Proof
end

