-- ==== Sys2Proof/Decode.lean ====
section
/-! DEFINITION. Decoding a command word and encoding a command (30_encoding.md R86 to R88). -/

namespace Sys2Proof

/-- Why a command word is refused: the two causes of `ILLEGAL_CMD` (R88). -/
inductive DecodeError where
  /-- `OP` is 0x0, 0xD, 0xE or 0xF. -/
  | reservedOpcode
  /-- `OP` is legal and a bit of [31:4] is set. -/
  | reservedBits
  deriving DecidableEq, Repr

/-- What decoding answers: a command, or the cause of its refusal. -/
inductive Decoded where
  | command (i : Instr)
  | illegal (e : DecodeError)
  deriving DecidableEq, Repr

/-- The opcode map of R87 on the `OP` field. -/
def decodeOp (op : Nat) : Option Instr :=
  match op with
  | 0x1 => some .clear
  | 0x2 => some .iappend
  | 0x3 => some .oappend
  | 0x4 => some .peek
  | 0x5 => some .consume
  | 0x6 => some .atend
  | 0x7 => some .expand
  | 0x8 => some .xfer
  | 0x9 => some .venc
  | 0xA => some .vdec
  | 0xB => some .deflate
  | 0xC => some .inflate
  | _ => none

/-- Decoding a command word, total: a reserved `OP` is reported before reserved bits (R88). -/
def decodeWord (w : Word) : Decoded :=
  match decodeOp (opField w) with
  | none => .illegal .reservedOpcode
  | some i => if reservedField w = 0 then .command i else .illegal .reservedBits

/-- The command word of a command (R87). -/
def encode (i : Instr) : Word :=
  match i with
  | .clear => 0x00000001#32
  | .iappend => 0x00000002#32
  | .oappend => 0x00000003#32
  | .peek => 0x00000004#32
  | .consume => 0x00000005#32
  | .atend => 0x00000006#32
  | .expand => 0x00000007#32
  | .xfer => 0x00000008#32
  | .venc => 0x00000009#32
  | .vdec => 0x0000000A#32
  | .deflate => 0x0000000B#32
  | .inflate => 0x0000000C#32

/-- The 32-bit command word of a numbered bit string: the bits above `nbits` are 0. -/
def tableWord (nbits w : Nat) : Word := BitVec.ofNat 32 (w % 2 ^ nbits)

/-- The command the decoder reads from a word numbered as the opcode table numbers it. The word is one 32-bit
register write, so no byte order enters (20_memory.md R55). -/
def decodeTableWord (nbits w : Nat) : Option Instr :=
  if w % 2 ^ nbits < 2 ^ 32 then
    match decodeWord (tableWord nbits w) with
    | .command i => some i
    | .illegal _ => none
  else none

end Sys2Proof
end

