-- ==== Sys2Proof/Config.lean ====
section
/-! DEFINITION. The block's parameters (00_scope.md R7) and the free values: what the spec leaves open has no
body here, so that nothing can be proved of it but what holds for every value. -/

namespace Sys2Proof.Config

/-- `CAP`, the largest number of characters a buffer may hold: 2^24 (R7). -/
def cap : Nat := 16777216

/-- `VDOMAIN`, the exclusive upper bound of an encodable value: 64^4 (R7, R111). -/
def vdomain : Nat := 16777216

/-- `MINMATCH`, the least length of a back-reference (R7, R183). -/
def minMatch : Nat := 4

/-- `MAXDIST`, the largest distance the compressor searches (R7, R183). -/
def maxDist : Nat := 4095

/-- `NEARDIST`: distances below this use the `'?'` token (R7, R184). -/
def nearDist : Nat := 64

/-- `BASE`, the block's place in the platform's address space: an OPEN parameter (20_memory.md R50, log 14). -/
opaque base : Nat

/-- The free 32-bit value of a draw: an unspecified register or a busy register read (R33, R61, R243; log 1). -/
opaque freeWord : Nat → Word

/-- The free character of a draw at a cell: unspecified buffer contents or a busy window read (R61, R243; log 1). -/
opaque freeByte : Nat → Nat → Byte

/-- The free natural number of a draw: an unspecified length or cursor, cut to its bounds where used (R243; log 1). -/
opaque freeNat : Nat → Nat

/-- Whether the allocation of a draw fails, asked only where `ALLOC_MAY_FAIL` is true (R255; log 8). -/
opaque allocFails : Nat → Bool

/-- Whether the unspecified `OBUF` and `OLEN` after EXPAND's INVALID_BACKREF come out unchanged: the outcome of
42_buffer.md R148, one of those of 60_exceptions.md R243; which of the two rules holds is left free (log 2). -/
opaque expandKeeps : Nat → Bool

/-- How many host accesses a command lets pass before it completes: finite and unspecified (R279; log 4). -/
opaque latency : Nat → Nat

end Sys2Proof.Config
end

