-- ==== Sys2Proof/Machine/State.lean ====
section
/-! DEFINITION. The state of the block (10_state.md R20), of the host agent as far as the block sees it, and the
reasons a step can stop. -/

namespace Sys2Proof.Machine

/-- A buffer's cells: (cell number, character) pairs, cell numbers strictly rising, none holding 0x00, which is what
an unlisted cell reads as (10_state.md R30; log 12). -/
abbrev Memory := List Host.Cell

/-- The two character buffers (10_state.md R26, R29). -/
inductive Buffer where
  | ibuf
  | obuf
  deriving DecidableEq, Repr

/-- The named registers of the register block (20_memory.md R51). -/
inductive Reg where
  | cmd
  | status
  | value
  | dist
  | len
  | ilen
  | icur
  | olen
  deriving DecidableEq, Repr

/-- The errors a command can raise: one constructor per (ECODE, CAUSE) pair of 60_exceptions.md R242. -/
inductive Err where
  /-- PRECONDITION / VALUE_RANGE. -/
  | valueRange
  /-- PRECONDITION / OUTPUT_NOT_EMPTY. -/
  | outputNotEmpty
  /-- FORMAT_INVALID / INVALID_NUMERIC. -/
  | invalidNumeric
  /-- FORMAT_INVALID / INVALID_BACKREF. -/
  | invalidBackref
  /-- FORMAT_INVALID / TRUNCATED. -/
  | truncated
  /-- FORMAT_TOO_LONG / NONE. -/
  | tooLong
  /-- ILLEGAL_CMD / RESERVED_OPCODE. -/
  | reservedOpcode
  /-- ILLEGAL_CMD / RESERVED_BITS. -/
  | reservedBits
  /-- ALLOC_FAILED / NONE. -/
  | allocFailed
  deriving DecidableEq, Repr

/-- The elements of state a command's write set may name (30_encoding.md R89). The STATUS fields are not listed:
R243 says what each error writes there. -/
inductive Element where
  | ibuf
  | ilen
  | icur
  | obuf
  | olen
  | value
  deriving DecidableEq, Repr

/-- One host bus access: `MemRead(addr, n)` or `MemWrite(addr, n, v)` with `n` in bytes (00_scope.md R8). -/
inductive BusOp where
  | read (addr : Addr) (width : Nat)
  | write (addr : Addr) (width : Nat) (data : Word)
  deriving DecidableEq, Repr

/-- What reaches the block from outside, one at a time (00_scope.md R6, 30_encoding.md R92; log 5). -/
inductive HostEvent where
  /-- One bus access of a host agent. -/
  | access (agent : Nat) (op : BusOp)
  /-- `poll`: read STATUS until its bit 0 is 0 (R92). -/
  | poll (agent : Nat)
  /-- The host agent is done and another may begin (20_memory.md R64; log 7). -/
  | handOver
  /-- The platform's reset input (70_reset_and_hazards.md R270). -/
  | reset
  deriving DecidableEq, Repr

/-- What a read returns to the host: a register's word or a window's byte (20_memory.md R50). -/
inductive Reply where
  | word (v : Word)
  | byte (v : Byte)
  deriving DecidableEq, Repr

/-- The whole state, plain data. -/
structure State where
  /-- `STATUS.BUSY` (R24). -/
  busy : Bool
  /-- `STATUS.ERR` (R24). -/
  err : Bool
  /-- `STATUS.ECODE` (R24, R241). -/
  ecode : BitVec 4
  /-- `STATUS.CAUSE` (R24, R242). -/
  cause : BitVec 4
  /-- `VALUE` (R21). -/
  value : Word
  /-- `DIST` (R22). -/
  dist : Word
  /-- `LEN` (R23). -/
  len : Word
  /-- The cells of `IBUF` (R26). -/
  ibuf : Memory
  /-- `ILEN` (R26). -/
  ilen : Nat
  /-- `ICUR` (R26). -/
  icur : Nat
  /-- The cells of `OBUF` (R29). -/
  obuf : Memory
  /-- `OLEN` (R29). -/
  olen : Nat
  /-- The command word latched at the `CMD` write (R25, R32); 0 while idle (log 11). -/
  cmd : Word
  /-- The model's own: the host accesses the running command still lets pass (R279; log 4). -/
  wait : Nat
  /-- The model's own: how many free values were drawn (log 1). -/
  draws : Nat
  /-- The parameter `ALLOC_MAY_FAIL` (R255); no step changes it (log 8). -/
  allocMayFail : Bool
  /-- The model's own: the host agent being served (R64; log 7). -/
  agent : Option Nat
  /-- The model's own: what the host still sends, first first (log 5). -/
  host : List HostEvent
  /-- The model's own: what reads have returned, newest first (log 6). -/
  replies : List Reply
  deriving DecidableEq, Repr

/-- Why an access gets a bus error (20_memory.md R54). -/
inductive BusError where
  /-- No region holds the address. -/
  | unmapped
  /-- A write to a read window. -/
  | windowWrite
  /-- A window access not of one byte. -/
  | windowWidth
  /-- A register access not of four bytes. -/
  | registerWidth
  /-- A register access at an offset that is no multiple of 4. -/
  | registerMisaligned
  deriving DecidableEq, Repr

/-- The faults. -/
inductive Fault where
  /-- A bus error of a host access (R54): raised by `busAccess`. SAFE: the spec makes it a fault of the host agent
  and the block's state is unchanged (93_implementation_defined.md). -/
  | busError (reason : BusError)
  deriving DecidableEq, Repr

/-- The refusals. -/
inductive Refusal where
  /-- A command without a meaning: raised by an arm of `exec` alone. SAFE. -/
  | notModelled (mnemonic : String)
  /-- A second host agent's access while another is served (20_memory.md R64): raised by `admitAgent`. SAFE: the spec
  tells a model to refuse it (93_implementation_defined.md). -/
  | interleavedStreams
  /-- STATUS holds an (ECODE, CAUSE) pair the block never produces (60_exceptions.md R242): raised by `step`. SAFE:
  the spec tells a model to refuse it (93_implementation_defined.md). -/
  | reservedErrorCode
  deriving DecidableEq, Repr

/-- The outcome of a step of the block. -/
abbrev Result := Host.Outcome State Fault Refusal

/-- The state right after reset (70_reset_and_hazards.md R270; 10_state.md section 7). -/
def State.reset : State where
  busy := false
  err := false
  ecode := 0#4
  cause := 0#4
  value := 0#32
  dist := 0#32
  len := 0#32
  ibuf := []
  ilen := 0
  icur := 0
  obuf := []
  olen := 0
  cmd := 0#32
  wait := 0
  draws := 0
  allocMayFail := false
  agent := none
  host := []
  replies := []

end Sys2Proof.Machine
end

