-- ==== Sys2Proof/Machine/Flags.lean ====
section
/-! DEFINITION. The fields of `STATUS`: the codes of each error and the word a read returns
(10_state.md R24; 60_exceptions.md R241, R242, R256). -/

namespace Sys2Proof.Machine

/-- `STATUS.ECODE` of an error (R241, R242). -/
def errCode (e : Err) : BitVec 4 :=
  match e with
  | .valueRange | .outputNotEmpty => 1#4
  | .invalidNumeric | .invalidBackref | .truncated => 2#4
  | .tooLong => 3#4
  | .reservedOpcode | .reservedBits => 4#4
  | .allocFailed => 5#4

/-- `STATUS.CAUSE` of an error (R242). -/
def errCause (e : Err) : BitVec 4 :=
  match e with
  | .valueRange => 1#4
  | .outputNotEmpty => 2#4
  | .invalidNumeric => 1#4
  | .invalidBackref => 2#4
  | .truncated => 3#4
  | .tooLong => 0#4
  | .reservedOpcode => 1#4
  | .reservedBits => 2#4
  | .allocFailed => 0#4

/-- The errors detected before any write: PRECONDITION and ILLEGAL_CMD (R243). -/
def errPrecise (e : Err) : Bool :=
  match e with
  | .valueRange | .outputNotEmpty | .reservedOpcode | .reservedBits => true
  | .invalidNumeric | .invalidBackref | .truncated | .tooLong | .allocFailed => false

/-- Every error of R242. -/
def allErrs : List Err :=
  [.valueRange, .outputNotEmpty, .invalidNumeric, .invalidBackref, .truncated, .tooLong, .reservedOpcode,
   .reservedBits, .allocFailed]

/-- The STATUS error fields are ones the block can hold: (0, 0) with `ERR` = 0, or a pair of R242 with `ERR` = 1
(R24, R242). -/
def statusLegal (s : State) : Bool :=
  if s.err then allErrs.any (fun e => decide (s.ecode = errCode e) && decide (s.cause = errCause e))
  else decide (s.ecode = 0#4) && decide (s.cause = 0#4)

/-- What a read of `STATUS` returns while idle: `CAUSE` [11:8], `ECODE` [7:4], `ERR` [1], `BUSY` [0], the reserved
bits 0 (R24). -/
def statusWord (s : State) : Word :=
  (s.cause.setWidth 32 <<< 8) ||| (s.ecode.setWidth 32 <<< 4) |||
    ((BitVec.ofBool s.err).setWidth 32 <<< 1) ||| (BitVec.ofBool s.busy).setWidth 32

/-- The host's lookup of an `ECODE`'s name, with the fallback "unknown" (R241, R256). -/
def errorName (ecode : Nat) : String :=
  match ecode with
  | 0 => "NONE"
  | 1 => "PRECONDITION"
  | 2 => "FORMAT_INVALID"
  | 3 => "FORMAT_TOO_LONG"
  | 4 => "ILLEGAL_CMD"
  | 5 => "ALLOC_FAILED"
  | _ => "unknown"

end Sys2Proof.Machine
end

