-- ==== Sys2Proof/Machine/Memory.lean ====
section
/-! DEFINITION. The named operations over a buffer's cells (10_state.md R26, R29, R30). -/

namespace Sys2Proof.Machine

/-- The character in cell `a`; an unlisted cell reads 0x00 (R30, 20_memory.md R52; log 12). -/
def Memory.read (m : Memory) (a : Nat) : Byte :=
  match m with
  | [] => 0#8
  | (a', b) :: rest => if a = a' then b else Memory.read rest a

/-- Cell `a` takes the character `b`; the list keeps its canonical form. -/
def Memory.write (m : Memory) (a : Nat) (b : Byte) : Memory :=
  match m with
  | [] => if b = 0#8 then [] else [(a, b)]
  | (a', b') :: rest =>
    if a < a' then (if b = 0#8 then (a', b') :: rest else (a, b) :: (a', b') :: rest)
    else if a = a' then (if b = 0#8 then rest else (a, b) :: rest)
    else (a', b') :: Memory.write rest a b

/-- The `n` characters from cell `a` on. -/
def Memory.slice (m : Memory) (a : Nat) (n : Nat) : List Byte :=
  match n with
  | 0 => []
  | n + 1 => m.read a :: Memory.slice m (a + 1) n

/-- The characters of a text stored one after another from cell `a` on. -/
def Memory.storeText (m : Memory) (a : Nat) (t : List Byte) : Memory :=
  match t with
  | [] => m
  | c :: rest => Memory.storeText (m.write a c) (a + 1) rest

/-- Every listed cell number is above `lo` when `lo` is given, and they rise strictly. -/
def Memory.rising (lo : Option Nat) (m : Memory) : Bool :=
  match m with
  | [] => true
  | (a, _) :: rest => (match lo with | none => true | some l => decide (l < a)) && Memory.rising (some a) rest

/-- No listed cell holds what an unlisted one reads as. -/
def Memory.noneZero (m : Memory) : Bool :=
  match m with
  | [] => true
  | (_, b) :: rest => decide (b ≠ 0#8) && Memory.noneZero rest

/-- Every listed cell is one the buffer has: below `CAP` (R26, R29). -/
def Memory.bounded (m : Memory) : Bool :=
  match m with
  | [] => true
  | (a, _) :: rest => decide (a < Config.cap) && Memory.bounded rest

/-- The canonical form of a buffer's cells: cell numbers strictly rising, no cell at 0x00. -/
def Memory.wf (m : Memory) : Bool := Memory.rising none m && Memory.noneZero m

end Sys2Proof.Machine
end

