-- ==== Sys2Proof/Machine/Operands.lean ====
section
/-! DEFINITION. What commands and bus accesses work on: characters and their classes (30_encoding.md R70 to R74),
the operand registers (R89), the buffers' texts, and the regions of the bus space (20_memory.md R50, R51). -/

namespace Sys2Proof.Machine

/-- The character of a code (R70, ASCII; log 15). -/
def chr (n : Nat) : Byte := BitVec.ofNat 8 n

/-- `'?'`, the near back-reference marker (R72, R81). -/
def nearMark : Byte := 0x3F#8

/-- `'@'`, the far back-reference marker (R72, R82). -/
def farMark : Byte := 0x40#8

/-- `keep(c)`: the append filter (R73). -/
def keep (c : Byte) : Bool :=
  decide (0x23 ≤ c.toNat) && decide (c.toNat ≤ 0x7A) &&
    !(decide (c.toNat = 0x5B) || decide (c.toNat = 0x5C) || decide (c.toNat = 0x5D) ||
      decide (c.toNat = 0x5F) || decide (c.toNat = 0x60))

/-- The token alphabet: the kept characters other than `'?'` and `'@'` (R74). -/
def tokenChar (c : Byte) : Bool := keep c && !(decide (c = nearMark) || decide (c = farMark))

/-- `digit(v)` for v in 0..63 (R71). -/
def digit (v : Nat) : Byte :=
  if v < 10 then chr (0x30 + v)
  else if v < 36 then chr (0x61 + v - 10)
  else if v < 62 then chr (0x41 + v - 36)
  else if v = 62 then 0x3A#8
  else 0x3B#8

/-- `isDigit(c)` (R71). -/
def isDigit (c : Byte) : Bool :=
  (decide (0x30 ≤ c.toNat) && decide (c.toNat ≤ 0x39)) || (decide (0x61 ≤ c.toNat) && decide (c.toNat ≤ 0x7A)) ||
    (decide (0x41 ≤ c.toNat) && decide (c.toNat ≤ 0x5A)) || decide (c.toNat = 0x3A) || decide (c.toNat = 0x3B)

/-- `digval(c)`, asked only where `isDigit(c)` (R71). -/
def digval (c : Byte) : Nat :=
  if c.toNat = 0x3A then 62
  else if c.toNat = 0x3B then 63
  else if c.toNat < 0x3A then c.toNat - 0x30
  else if c.toNat < 0x5B then c.toNat - 0x41 + 36
  else c.toNat - 0x61 + 10

/-- TIER: `'#'..'/'` (R72). -/
def isTier (c : Byte) : Bool := decide (0x23 ≤ c.toNat) && decide (c.toNat ≤ 0x2F)

/-- LONG: how many digits follow `'<'`, `'='`, `'>'`; 0 for any other character (R72, R77). -/
def longDigits (c : Byte) : Nat :=
  if c = 0x3C#8 then 2 else if c = 0x3D#8 then 3 else if c = 0x3E#8 then 4 else 0

/-- BREF: `'?'` and `'@'` (R72). -/
def isBref (c : Byte) : Bool := decide (c = nearMark) || decide (c = farMark)

/-- OTHER: `'^'` (R72). -/
def isOther (c : Byte) : Bool := decide (c = 0x5E#8)

/-- The character operand of IAPPEND and OAPPEND: `VALUE[7:0]` (R89). -/
def charOperand (s : State) : Byte := s.value.setWidth 8

/-- `zext_32` of a character (R8, R89). -/
def zextChar (c : Byte) : Word := c.setWidth 32

/-- A length or cursor as a register read returns it: `zext_32` of a 25-bit value (10_state.md R26, R29; log 18). -/
def zextLength (n : Nat) : Word := (BitVec.ofNat 25 n).setWidth 32

/-- The cells of a buffer. -/
def cellsOf (b : Buffer) (s : State) : Memory :=
  match b with
  | .ibuf => s.ibuf
  | .obuf => s.obuf

/-- The length of a buffer. -/
def lengthOf (b : Buffer) (s : State) : Nat :=
  match b with
  | .ibuf => s.ilen
  | .obuf => s.olen

/-- The characters a buffer holds: cells 0 up to its length (R26, R29). -/
def textOf (b : Buffer) (s : State) : List Byte := (cellsOf b s).slice 0 (lengthOf b s)

/-- The unread characters `IBUF[ICUR..ILEN)` (43_deflate.md R180). -/
def unread (s : State) : List Byte := s.ibuf.slice s.icur (s.ilen - s.icur)

/-- The write set of a command, the STATUS fields apart (30_encoding.md R89). -/
def writeSet (i : Instr) : List Element :=
  match i with
  | .clear => [.ilen, .icur, .olen]
  | .iappend => [.ibuf, .ilen]
  | .oappend => [.obuf, .olen]
  | .peek => [.value]
  | .consume => [.value, .icur]
  | .atend => [.value]
  | .expand => [.obuf, .olen]
  | .xfer => [.ibuf, .ilen, .icur, .olen]
  | .venc => [.obuf, .olen]
  | .vdec => [.value, .icur]
  | .deflate => [.obuf, .olen, .icur]
  | .inflate => [.obuf, .olen, .icur]

/-- The offset of a register in the register block (20_memory.md R51). -/
def regOffset (r : Reg) : Nat :=
  match r with
  | .cmd => 0x00
  | .status => 0x04
  | .value => 0x08
  | .dist => 0x0C
  | .len => 0x10
  | .ilen => 0x14
  | .icur => 0x18
  | .olen => 0x1C

/-- The register at an offset; none at the reserved offsets (R51). -/
def regAt (offset : Nat) : Option Reg :=
  match offset with
  | 0x00 => some .cmd
  | 0x04 => some .status
  | 0x08 => some .value
  | 0x0C => some .dist
  | 0x10 => some .len
  | 0x14 => some .ilen
  | 0x18 => some .icur
  | 0x1C => some .olen
  | _ => none

/-- The regions of the bus space (R50). -/
inductive Region where
  | registers (offset : Nat)
  | window (b : Buffer) (k : Nat)
  | unmapped
  deriving DecidableEq, Repr

/-- The region that holds an address (R50). -/
def regionOf (a : Addr) : Region :=
  if a.toNat < 0x40 then .registers a.toNat
  else if 0x1000000 ≤ a.toNat ∧ a.toNat < 0x2000000 then .window .ibuf (a.toNat - 0x1000000)
  else if 0x2000000 ≤ a.toNat ∧ a.toNat < 0x3000000 then .window .obuf (a.toNat - 0x2000000)
  else .unmapped

/-- The address of a register (R51). -/
def regAddr (r : Reg) : Addr := BitVec.ofNat 26 (regOffset r)

/-- The address of a window byte (R52, R53). DESIGN CHOICE: a window has bytes 0 to 2^24 - 1 and 30_encoding.md R92
gives `k` no bound; the sum is taken modulo 2^26, the width of a block address (log 20). -/
def windowAddr (b : Buffer) (k : Nat) : Addr :=
  match b with
  | .ibuf => BitVec.ofNat 26 (0x1000000 + k)
  | .obuf => BitVec.ofNat 26 (0x2000000 + k)

/-- Where the platform places a block address: `BASE` plus the address (R50; log 14). -/
def platformAddr (a : Addr) : Nat := Config.base + a.toNat

/-- The block address of a platform address, where the block has one (R50; log 14). -/
def blockAddr (p : Nat) : Option Addr :=
  if Config.base ≤ p ∧ p < Config.base + 0x4000000 then some (BitVec.ofNat 26 (p - Config.base)) else none

/-- The bus error of an access, if it gets one (R54): window writes and widths, register widths and alignment. -/
def busErrorOf (op : BusOp) : Option BusError :=
  match op with
  | .read a w =>
    match regionOf a with
    | .registers off =>
      if w = 4 then (if off % 4 = 0 then none else some .registerMisaligned) else some .registerWidth
    | .window _ _ => if w = 1 then none else some .windowWidth
    | .unmapped => some .unmapped
  | .write a w _ =>
    match regionOf a with
    | .registers off =>
      if w = 4 then (if off % 4 = 0 then none else some .registerMisaligned) else some .registerWidth
    | .window _ _ => some .windowWrite
    | .unmapped => some .unmapped

end Sys2Proof.Machine
end

