-- ==== Sys2Proof/Machine/Ops.lean ====
section
/-! DEFINITION. The shared operations: the named updates of the state, completing a command, raising an error
(60_exceptions.md R243), the sticky error (R244), the append (42_buffer.md R140) and the back-reference expansion
(R147). -/

namespace Sys2Proof.Machine

/-- The command completes: `BUSY` <- 0 and the engine holds no word (10_state.md R24, R32; log 11). -/
def complete (s : State) : State := { s with busy := false, cmd := 0#32, wait := 0 }

/-- `VALUE <- v`. -/
def setValue (v : Word) (s : State) : State := { s with value := v }

/-- `DIST <- v`. -/
def setDist (v : Word) (s : State) : State := { s with dist := v }

/-- `LEN <- v`. -/
def setLen (v : Word) (s : State) : State := { s with len := v }

/-- `ICUR <- n`. -/
def setCursor (n : Nat) (s : State) : State := { s with icur := n }

/-- A buffer takes new cells and a new length. -/
def setBuffer (b : Buffer) (m : Memory) (n : Nat) (s : State) : State :=
  match b with
  | .ibuf => { s with ibuf := m, ilen := n }
  | .obuf => { s with obuf := m, olen := n }

/-- `ILEN <- 0; ICUR <- 0; OLEN <- 0`; the cells are not erased (R141). -/
def emptyBuffers (s : State) : State := { s with ilen := 0, icur := 0, olen := 0 }

/-- `STATUS.ERR`, `ECODE`, `CAUSE` <- 0 (R141). -/
def clearError (s : State) : State := { s with err := false, ecode := 0#4, cause := 0#4 }

/-- `STATUS.ERR <- 1; STATUS.ECODE <- e; STATUS.CAUSE <- c` (R243). -/
def recordError (e : Err) (s : State) : State := { s with err := true, ecode := errCode e, cause := errCause e }

/-- `n` free values are drawn (log 1). -/
def advanceDraws (n : Nat) (s : State) : State := { s with draws := s.draws + n }

/-- An element of the write set is UNSPECIFIED (R243). -/
def inSet (x : Element) (ws : List Element) : Bool := ws.contains x

/-- An unspecified length from `lo` to `CAP`, or `lo` itself where `lo` is `CAP` or more (R243; log 1, 13). -/
def freeLength (d : Nat) (lo : Nat) : Nat := lo + Config.freeNat d % (Config.cap - lo + 1)

/-- An unspecified cursor from 0 to `n` (R243; log 1). -/
def freeCursor (d : Nat) (n : Nat) : Nat := Config.freeNat d % (n + 1)

/-- Unspecified characters in cells 0 up to `n` (R243; log 1, 3). DESIGN CHOICE: the drawn cells are all the list
holds, so a cell at or beyond `n` reads 0x00 whatever stood there before; the spec gives such a cell no value and no
access sees it (10_state.md R30, R33; log 12). -/
def freeCells (d : Nat) (n : Nat) : Memory :=
  Memory.storeText [] 0 ((List.range n).map (Config.freeByte d))

/-- `OLEN` after an error (R243). -/
def unspecOlen (ws : List Element) (s : State) : Nat :=
  if inSet .olen ws then freeLength s.draws 0 else s.olen

/-- `ILEN` after an error: where the cursor keeps its value, not below the cursor (R243; log 13). -/
def unspecIlen (ws : List Element) (s : State) : Nat :=
  if inSet .ilen ws then freeLength (s.draws + 1) (if inSet .icur ws then 0 else s.icur) else s.ilen

/-- `ICUR` after an error: at most the length (R243). -/
def unspecIcur (ws : List Element) (s : State) : Nat :=
  if inSet .icur ws then freeCursor (s.draws + 2) (unspecIlen ws s) else s.icur

/-- Every element of the write set becomes UNSPECIFIED, subject to `ICUR <= ILEN <= CAP` and `OLEN <= CAP`; the
others keep their values (R243). The three draws of one error give each element a free value of its own. What a drawn
buffer's cells at or beyond its drawn length read as is the model's choice (log 12). -/
def unspecify (ws : List Element) (s : State) : State :=
  { s with
    value := if inSet .value ws then Config.freeWord s.draws else s.value
    ibuf := if inSet .ibuf ws then freeCells (s.draws + 1) (unspecIlen ws s) else s.ibuf
    ilen := unspecIlen ws s
    icur := unspecIcur ws s
    obuf := if inSet .obuf ws then freeCells s.draws (unspecOlen ws s) else s.obuf
    olen := unspecOlen ws s
    draws := s.draws + 3 }

/-- `raise Err(e, c)` in a command with write set `ws` (R243). -/
def raiseErr (ws : List Element) (e : Err) (s : State) : State :=
  if errPrecise e then recordError e s else recordError e (unspecify ws s)

/-- How a command's own work ends: with a state, or with the error it raised and the state it raised it in. -/
inductive Work where
  | done (s : State)
  | raised (e : Err) (s : State)
  deriving DecidableEq, Repr

/-- Nothing after a `raise` executes (00_scope.md R8). -/
def Work.andThen (w : Work) (k : State → Work) : Work :=
  match w with
  | .done s => k s
  | .raised e s => .raised e s

/-- The command completes, with the error it raised written (R243). -/
def finish (i : Instr) (w : Work) : Result :=
  match w with
  | .done s => .next (complete s)
  | .raised e s => .next (complete (raiseErr (writeSet i) e s))

/-- The sticky error: while `STATUS.ERR` = 1 a command other than CLEAR completes at once with no change (R244). -/
def performed (k : State → Result) (s : State) : Result :=
  if s.err then .next (complete s) else k s

/-- While `STATUS.ERR` = 1 a command word other than exactly CLEAR's is not performed (R244). -/
def ignoredWord (w : Word) (s : State) : Bool := s.err && decide (w ≠ encode .clear)

/-- An illegal command word: `Err(ILLEGAL_CMD, cause)`, no state but STATUS changes (30_encoding.md R88). -/
def illegalCommand (e : DecodeError) (s : State) : Result :=
  performed (fun s => .next (complete (recordError
    (match e with
      | .reservedOpcode => .reservedOpcode
      | .reservedBits => .reservedBits) s))) s

/-- Whether this kept append's allocation fails: never where `ALLOC_MAY_FAIL` is false (R255; log 8). -/
def allocRefused (s : State) : Bool := s.allocMayFail && Config.allocFails s.draws

/-- The state once a kept append has asked for its allocation: one draw where `ALLOC_MAY_FAIL` is true (R255). -/
def allocAsked (s : State) : State := if s.allocMayFail then advanceDraws 1 s else s

/-- `B[lenB] <- c; lenB <- lenB + 1` (42_buffer.md R140). -/
def storeChar (b : Buffer) (c : Byte) (s : State) : State :=
  setBuffer b ((cellsOf b s).write (lengthOf b s) c) (lengthOf b s + 1) s

/-- `append(B, c)` (42_buffer.md R140, 60_exceptions.md R255). -/
def append (b : Buffer) (c : Byte) (s : State) : Work :=
  if keep c = false then .done s
  else if Config.cap ≤ lengthOf b s then .raised .tooLong s
  else if allocRefused s then .raised .allocFailed (allocAsked s)
  else .done (storeChar b c (allocAsked s))

/-- The characters of a text appended one by one. -/
def appendText (b : Buffer) (t : List Byte) (s : State) : Work :=
  match t with
  | [] => .done s
  | c :: rest => (append b c s).andThen (appendText b rest)

/-- `expand(d, l)` on `OBUF`, one character at a time (42_buffer.md R147). -/
def expand (d : Nat) (l : Nat) (s : State) : Work :=
  match l with
  | 0 => .done s
  | l + 1 => (append .obuf (s.obuf.read (s.olen - d)) s).andThen (expand d l)

/-- A back-reference checked and expanded: distance and length, then the ceiling, without wrap-around
(44_inflate.md R214, R215; 42_buffer.md R148, R151). -/
def backref (d l : Nat) (s : State) : Work :=
  if d = 0 ∨ l = 0 ∨ s.olen < d then .raised .invalidBackref s
  else if Config.cap < s.olen + l then .raised .tooLong s
  else expand d l s

end Sys2Proof.Machine
end

