-- ==== Sys2Proof/Machine/Bus.lean ====
section
/-! DEFINITION. The host's side: bus reads and writes (20_memory.md R50 to R62), poll, hand-over and reset. -/

namespace Sys2Proof.Machine

/-- How many host accesses the word just written lets pass: none where the engine completes it at once
(60_exceptions.md R244), else a free number (70_reset_and_hazards.md R279; log 4). -/
def waitOf (w : Word) (s : State) : Nat := if ignoredWord w s then 0 else Config.latency s.draws

/-- A `CMD` write while idle: `BUSY` <- 1 and the word goes to the engine (10_state.md R25). -/
def latch (w : Word) (s : State) : State :=
  { s with busy := true, cmd := w, wait := waitOf w s, draws := s.draws + 1 }

/-- What a read of a register returns while idle; none is a reserved offset (20_memory.md R51, R56). -/
def idleRead (r : Option Reg) (s : State) : Word :=
  match r with
  | some .cmd => 0#32
  | some .status => statusWord s
  | some .value => s.value
  | some .dist => s.dist
  | some .len => s.len
  | some .ilen => zextLength s.ilen
  | some .icur => zextLength s.icur
  | some .olen => zextLength s.olen
  | none => 0#32

/-- What a read of a register returns while busy: `STATUS` with `BUSY` = 1 and any value else, any value for `VALUE`
and the lengths, `DIST`, `LEN` and the constant offsets as ever (20_memory.md R61; log 10). -/
def busyRead (r : Option Reg) (s : State) : Word :=
  match r with
  | some .status => Config.freeWord s.draws ||| 1#32
  | some .value => Config.freeWord s.draws
  | some .ilen => Config.freeWord s.draws
  | some .icur => Config.freeWord s.draws
  | some .olen => Config.freeWord s.draws
  | some .cmd => idleRead (some .cmd) s
  | some .dist => idleRead (some .dist) s
  | some .len => idleRead (some .len) s
  | none => idleRead none s

/-- A read of a register (R61). -/
def readRegister (r : Option Reg) (s : State) : Word := if s.busy then busyRead r s else idleRead r s

/-- A read of a window byte: the cell below the length, 0x00 beyond it, any value while busy (R52, R53, R61). -/
def readWindow (b : Buffer) (k : Nat) (s : State) : Byte :=
  if s.busy then Config.freeByte s.draws k
  else if k < lengthOf b s then (cellsOf b s).read k
  else 0x00#8

/-- The draw a read while busy makes (R61; log 1). -/
def drawnRead (s : State) : State := if s.busy then advanceDraws 1 s else s

/-- What a read without a bus error returns. -/
def readAt (a : Addr) (s : State) : Reply :=
  match regionOf a with
  | .registers off => .word (readRegister (regAt off) s)
  | .window b k => .byte (readWindow b k s)
  | .unmapped => .byte 0x00#8

/-- A write of a register while idle: the read-only and the reserved offsets ignore it (R51, R56). -/
def writeRegister (r : Option Reg) (v : Word) (s : State) : State :=
  match r with
  | some .cmd => latch v s
  | some .value => setValue v s
  | some .dist => setDist v s
  | some .len => setLen v s
  | some .status => s
  | some .ilen => s
  | some .icur => s
  | some .olen => s
  | none => s

/-- A write without a bus error: dropped while busy (R62). -/
def writeAt (a : Addr) (v : Word) (s : State) : State :=
  if s.busy then s
  else
    match regionOf a with
    | .registers off => writeRegister (regAt off) v s
    | .window _ _ => s
    | .unmapped => s

/-- The host takes the reply of a read (log 6). -/
def pushReply (r : Reply) (s : State) : State := { s with replies := r :: s.replies }

/-- One bus access: a bus error is a fault of the host agent (R54, 93_implementation_defined.md). -/
def busAccess (op : BusOp) (s : State) : Result :=
  match busErrorOf op with
  | some e => .fault (.busError e)
  | none =>
    match op with
    | .read a _ => .next (pushReply (readAt a s) (drawnRead s))
    | .write a _ v => .next (writeAt a v s)

/-- The block serves a host agent, or none (R64; log 7). -/
def serve (a : Option Nat) (s : State) : State := { s with agent := a }

/-- One instance serves one host agent at a time: another's access is refused (R64; log 7). -/
def admitAgent (agent : Nat) (k : State → Result) (s : State) : Result :=
  match s.agent with
  | none => k (serve (some agent) s)
  | some a => if a = agent then k s else .refused .interleavedStreams

/-- The first event leaves the host's list; a running command has let one more pass (log 4, 5). -/
def takeEvent (rest : List HostEvent) (s : State) : State := { s with host := rest, wait := s.wait - 1 }

/-- An event goes back to the front of the host's list. -/
def putBack (e : HostEvent) (s : State) : State := { s with host := e :: s.host }

/-- One round of `poll`: a read of STATUS, made again until its bit 0 is 0 (30_encoding.md R92). -/
def pollOnce (agent : Nat) (s : State) : Result :=
  if (readRegister (some .status) s).getLsbD 0 then
    .next (putBack (.poll agent) (pushReply (.word (readRegister (some .status) s)) (drawnRead s)))
  else .next (pushReply (.word (readRegister (some .status) s)) (drawnRead s))

/-- The reset input: every piece of the block's state at its reset value, a running command abandoned
(70_reset_and_hazards.md R270, R271). What is the host's or the model's own stays (log 16). -/
def resetBlock (s : State) : State :=
  { State.reset with
    draws := s.draws, allocMayFail := s.allocMayFail, host := s.host, replies := s.replies }

/-- The host's turn with the event `e`. -/
def hostEvent (e : HostEvent) (s : State) : Result :=
  match e with
  | .access agent op => admitAgent agent (busAccess op) s
  | .poll agent => admitAgent agent (pollOnce agent) s
  | .handOver => .next (serve none s)
  | .reset => .next (resetBlock s)

/-- The host's turn: its next event, or nothing, and the block stays idle (R253, R272). -/
def hostTurn (s : State) : Result :=
  match s.host with
  | [] => .next s
  | e :: rest => hostEvent e (takeEvent rest s)

end Sys2Proof.Machine
end

