-- ==== Sys2Proof/Machine/Varint.lean ====
section
/-! DEFINITION. The variable-length integer codec: VENC and VDEC (41_varint.md). -/

namespace Sys2Proof.Machine

/-- `encodeValue(v)` for v below 2^24 (R112). -/
def encodeValue (v : Nat) : List Byte :=
  if v < 64 then [digit v]
  else if v < 896 then [chr (0x22 + v / 64), digit (v % 64)]
  else if v < 4096 then [0x3C#8, digit (v / 64), digit (v % 64)]
  else if v < 262144 then [0x3D#8, digit (v / 4096), digit ((v / 64) % 64), digit (v % 64)]
  else [0x3E#8, digit (v / 262144), digit ((v / 4096) % 64), digit ((v / 64) % 64), digit (v % 64)]

/-- What a reader answers: what it read and the text after it, or the error. -/
inductive Parsed (α : Type) where
  | ok (v : α) (rest : List Byte)
  | bad (e : Err)
  deriving DecidableEq, Repr

/-- `nextChar()` on the unread text (R117). -/
def nextChar (t : List Byte) : Parsed Byte :=
  match t with
  | [] => .bad .truncated
  | c :: rest => .ok c rest

/-- `nextDigit()` on the unread text (R117). -/
def nextDigit (t : List Byte) : Parsed Nat :=
  match nextChar t with
  | .bad e => .bad e
  | .ok c rest => if isDigit c then .ok (digval c) rest else .bad .invalidNumeric

/-- `n` digits, most significant first, after the value `v` (R116, 30_encoding.md R77). -/
def nextDigits (n : Nat) (v : Nat) (t : List Byte) : Parsed Nat :=
  match n with
  | 0 => .ok v t
  | n + 1 =>
    match nextDigit t with
    | .bad e => .bad e
    | .ok d rest => nextDigits n (v * 64 + d) rest

/-- `decodeValue()` on the unread text (R116). -/
def decodeValue (t : List Byte) : Parsed Nat :=
  match nextChar t with
  | .bad e => .bad e
  | .ok c rest =>
    if isTier c then nextDigits 1 (c.toNat - 0x22) rest
    else if longDigits c ≠ 0 then nextDigits (longDigits c) 0 rest
    else if isDigit c then .ok (digval c) rest
    else .bad .invalidNumeric

/-- A read of the input ended: the cursor stands before the text that is left (R117). -/
def cursorAt (rest : List Byte) (s : State) : State := setCursor (s.ilen - rest.length) s

/-- A read whose result goes to `VALUE` (R115, 42_buffer.md R145). -/
def readToValue (p : Parsed Word) (s : State) : Work :=
  match p with
  | .bad e => .raised e s
  | .ok v rest => .done (setValue v (cursorAt rest s))

/-- A parsed number as `VALUE` takes it: `zext_32` (R115). -/
def parsedWord (p : Parsed Nat) : Parsed Word :=
  match p with
  | .bad e => .bad e
  | .ok v rest => .ok (BitVec.ofNat 32 v) rest

/-- VENC (R110). -/
def execVenc (s : State) : Result :=
  performed (fun s =>
    if Config.vdomain ≤ s.value.toNat then finish .venc (.raised .valueRange s)
    else finish .venc (appendText .obuf (encodeValue s.value.toNat) s)) s

/-- VDEC (R115). -/
def execVdec (s : State) : Result :=
  performed (fun s => finish .vdec (readToValue (parsedWord (decodeValue (unread s))) s)) s

end Sys2Proof.Machine
end

