-- ==== Sys2Proof/Machine/Buffers.lean ====
section
/-! DEFINITION. The character buffer and cursor commands: CLEAR, IAPPEND, OAPPEND, PEEK, CONSUME, ATEND, EXPAND,
XFER (42_buffer.md). -/

namespace Sys2Proof.Machine

/-- CLEAR: the one command performed while `ERR` = 1 (R141, 60_exceptions.md R244). -/
def execClear (s : State) : Result := .next (complete (clearError (emptyBuffers s)))

/-- IAPPEND (R142). -/
def execIappend (s : State) : Result :=
  performed (fun s => finish .iappend (append .ibuf (charOperand s) s)) s

/-- OAPPEND (R143). -/
def execOappend (s : State) : Result :=
  performed (fun s => finish .oappend (append .obuf (charOperand s) s)) s

/-- PEEK (R144). -/
def execPeek (s : State) : Result :=
  performed (fun s =>
    finish .peek (.done (setValue (if s.icur < s.ilen then zextChar (s.ibuf.read s.icur) else 0#32) s))) s

/-- A parsed character as `VALUE` takes it: zero-extended (R145). -/
def parsedChar (p : Parsed Byte) : Parsed Word :=
  match p with
  | .bad e => .bad e
  | .ok c rest => .ok (zextChar c) rest

/-- CONSUME (R145). -/
def execConsume (s : State) : Result :=
  performed (fun s => finish .consume (readToValue (parsedChar (nextChar (unread s))) s)) s

/-- ATEND (R146). -/
def execAtend (s : State) : Result :=
  performed (fun s => finish .atend (.done (setValue (if s.icur = s.ilen then 1#32 else 0#32) s))) s

/-- `raise Err(FORMAT_INVALID, INVALID_BACKREF)` in EXPAND. DESIGN CHOICE: R148 says that no state changes, the general
60_exceptions.md R243 that `OBUF` and `OLEN` become unspecified, so a draw says which of the two happens (log 2). -/
def refuseExpand (s : State) : State :=
  recordError .invalidBackref
    (if Config.expandKeeps s.draws then advanceDraws 1 s else unspecify (writeSet .expand) s)

/-- EXPAND (R148): after FORMAT_TOO_LONG the write set is unspecified, after INVALID_BACKREF see `refuseExpand`. -/
def execExpand (s : State) : Result :=
  performed (fun s =>
    match backref s.dist.toNat s.len.toNat s with
    | .raised .invalidBackref s' => .next (complete (refuseExpand s'))
    | w => finish .expand w) s

/-- `IBUF[k] <- OBUF[k]` for every k below `OLEN`; `ILEN <- OLEN; ICUR <- 0; OLEN <- 0` (R149). -/
def moveBuffer (s : State) : State :=
  { s with ibuf := s.ibuf.storeText 0 (textOf .obuf s), ilen := s.olen, icur := 0, olen := 0 }

/-- XFER (R149). -/
def execXfer (s : State) : Result := performed (fun s => finish .xfer (.done (moveBuffer s))) s

end Sys2Proof.Machine
end

