-- ==== Sys2Proof/Machine/Deflate.lean ====
section
/-! DEFINITION. The dictionary compressor: DEFLATE (43_deflate.md). -/

namespace Sys2Proof.Machine

/-- The length of the longest common beginning of two texts. -/
def commonLength (x y : List Byte) : Nat :=
  match x, y with
  | a :: x, b :: y => if a = b then commonLength x y + 1 else 0
  | [], _ => 0
  | _ :: _, [] => 0

/-- `matchLen(s, j, i)` for j < i: the two ranges may overlap (R182). -/
def matchLen (s : List Byte) (j i : Nat) : Nat := commonLength (s.drop j) (s.drop i)

/-- A match: its length and its distance; length 0 is no match. -/
structure Match where
  len : Nat
  dist : Nat
  deriving DecidableEq, Repr

/-- One candidate, at distance `d`: it becomes the best only if its length is at least 4 and strictly greater than
the best so far (R183). -/
def consider (s : List Byte) (i : Nat) (best : Match) (d : Nat) : Match :=
  if Config.minMatch ≤ matchLen s (i - d) i ∧ best.len < matchLen s (i - d) i then ⟨matchLen s (i - d) i, d⟩
  else best

/-- The candidates from distance `d` on, `n` of them, nearest first (R183). -/
def searchFrom (s : List Byte) (i : Nat) (n : Nat) (d : Nat) (best : Match) : Match :=
  match n with
  | 0 => best
  | n + 1 => searchFrom s i n (d + 1) (consider s i best d)

/-- The best match at position `i`: distances 1 up to the least of `i` and 4095 (R183). -/
def bestMatch (s : List Byte) (i : Nat) : Match := searchFrom s i (min i Config.maxDist) 1 ⟨0, 0⟩

/-- Whether the best match is emitted as a literal: no match, or length 4 at distance 64 or more (R184). -/
def isLiteral (m : Match) : Bool :=
  decide (m.len = 0) || (decide (m.len = 4) && decide (Config.nearDist ≤ m.dist))

/-- The token of a match: near below distance 64 (R185), far else (R186). -/
def tokenOf (m : Match) : List Byte :=
  if m.dist < Config.nearDist then nearMark :: (encodeValue m.dist ++ encodeValue m.len)
  else farMark :: digit (m.dist / 64) :: digit (m.dist % 64) :: encodeValue m.len

/-- The compressor's loop from position `i` (R181), `fuel` bounding its rounds: each moves `i` by 1 at least. -/
def deflateFrom (s : List Byte) (fuel : Nat) (i : Nat) : List Byte :=
  match fuel with
  | 0 => s.drop i
  | fuel + 1 =>
    if i + 4 ≤ s.length then
      if isLiteral (bestMatch s i) then s.getD i 0#8 :: deflateFrom s fuel (i + 1)
      else tokenOf (bestMatch s i) ++ deflateFrom s fuel (i + (bestMatch s i).len)
    else s.drop i

/-- `deflate(s)` (R181, R188). -/
def deflate (s : List Byte) : List Byte := deflateFrom s s.length 0

/-- `ICUR <- ILEN` (R180). -/
def cursorToEnd (s : State) : State := setCursor s.ilen s

/-- DEFLATE (R180). -/
def execDeflate (s : State) : Result :=
  performed (fun s =>
    if s.olen ≠ 0 then finish .deflate (.raised .outputNotEmpty s)
    else finish .deflate
      ((appendText .obuf (deflate (unread s)) s).andThen (fun s' => .done (cursorToEnd s')))) s

end Sys2Proof.Machine
end

