-- ==== Sys2Proof/Machine/Inflate.lean ====
section
/-! DEFINITION. The dictionary decompressor: INFLATE (44_inflate.md). -/

namespace Sys2Proof.Machine

/-- A back-reference as read: its distance and its length. -/
structure Backref where
  dist : Nat
  len : Nat
  deriving DecidableEq, Repr

/-- A token's length after its distance (R212, R213, R217). -/
def readLength (p : Parsed Nat) : Parsed Backref :=
  match p with
  | .bad e => .bad e
  | .ok d rest =>
    match decodeValue rest with
    | .bad e => .bad e
    | .ok l rest' => .ok ⟨d, l⟩ rest'

/-- After `'?'`: a distance and a length, both of any variable-length form (R212). -/
def readNear (t : List Byte) : Parsed Backref := readLength (decodeValue t)

/-- After `'@'`: two raw digits, then a length of any variable-length form (R213). -/
def readFar (t : List Byte) : Parsed Backref := readLength (nextDigits 2 0 t)

/-- `inflateLoop()` on the unread text (R211), `fuel` bounding its rounds: each reads a character at least (R218). -/
def inflateLoop (fuel : Nat) (t : List Byte) (s : State) : Work :=
  match fuel, t with
  | 0, _ => .done s
  | _ + 1, [] => .done s
  | fuel + 1, c :: t =>
    if c = nearMark ∨ c = farMark then
      match (if c = nearMark then readNear t else readFar t) with
      | .bad e => .raised e s
      | .ok r rest => (backref r.dist r.len s).andThen (inflateLoop fuel rest)
    else (append .obuf c s).andThen (inflateLoop fuel t)

/-- INFLATE (R210). -/
def execInflate (s : State) : Result :=
  performed (fun s =>
    if s.olen ≠ 0 then finish .inflate (.raised .outputNotEmpty s)
    else finish .inflate
      ((inflateLoop (unread s).length (unread s) s).andThen (fun s' => .done (cursorToEnd s')))) s

end Sys2Proof.Machine
end

