-- ==== Sys2Proof/Machine/Dispatch.lean ====
section
/-! DEFINITION. The meaning of each command (30_encoding.md R87). -/

namespace Sys2Proof.Machine

/-- The engine performs one command to completion. -/
def exec (i : Instr) (s : State) : Host.Outcome State Fault Refusal :=
  match i with
  | .clear => Sys2Proof.Machine.execClear s
  | .iappend => Sys2Proof.Machine.execIappend s
  | .oappend => Sys2Proof.Machine.execOappend s
  | .peek => Sys2Proof.Machine.execPeek s
  | .consume => Sys2Proof.Machine.execConsume s
  | .atend => Sys2Proof.Machine.execAtend s
  | .expand => Sys2Proof.Machine.execExpand s
  | .xfer => Sys2Proof.Machine.execXfer s
  | .venc => Sys2Proof.Machine.execVenc s
  | .vdec => Sys2Proof.Machine.execVdec s
  | .deflate => Sys2Proof.Machine.execDeflate s
  | .inflate => Sys2Proof.Machine.execInflate s

end Sys2Proof.Machine
end

