-- ==== Sys2Proof/Machine/Engine.lean ====
section
/-! DEFINITION. The engine's turn and who moves next (00_scope.md R6; 20_memory.md R57, R59). -/

namespace Sys2Proof.Machine

/-- The engine performs the latched word to completion: the command it decodes to, or `ILLEGAL_CMD`
(30_encoding.md R86, R88). -/
def runCommand (s : State) : Result :=
  match decodeWord s.cmd with
  | .command i => exec i s
  | .illegal e => illegalCommand e s

/-- The engine moves next: a command is latched and lets no further host access pass (70_reset_and_hazards.md R279;
log 4). -/
def engineTurn (s : State) : Bool := s.busy && (decide (s.wait = 0) || s.host.isEmpty)

/-- One event of the total order of host accesses and completions (20_memory.md R59). A STATUS pair the block never
produces is refused (93_implementation_defined.md; log 9). -/
def nextEvent (s : State) : Result :=
  if statusLegal s then (if engineTurn s then runCommand s else hostTurn s)
  else .refused .reservedErrorCode

/-- A command word stands latched and the engine moves next (log 5). -/
def placeCommand (w : Word) (s : State) : State := { s with busy := true, cmd := w, wait := 0 }

end Sys2Proof.Machine
end

