-- ==== Sys2Proof/Machine/Script.lean ====
section
/-! DEFINITION. Host command scripts: a line's bus operations (30_encoding.md R92) and the pseudo-instructions (R93). -/

namespace Sys2Proof.Machine

/-- A line of a host command script (R92). -/
inductive Line where
  /-- `wr REG, imm`. -/
  | wr (r : Reg) (imm : Word)
  /-- `rd REG`. -/
  | rd (r : Reg)
  /-- `rdb IBUF, k` or `rdb OBUF, k`. -/
  | rdb (b : Buffer) (k : Nat)
  /-- `cmd MNEMONIC`. -/
  | cmd (i : Instr)
  /-- `poll`. -/
  | poll
  deriving DecidableEq, Repr

/-- The bus operation of a line, sent by a host agent (R92). -/
def lineEvent (agent : Nat) (l : Line) : HostEvent :=
  match l with
  | .wr r imm => .access agent (.write (regAddr r) 4 imm)
  | .rd r => .access agent (.read (regAddr r) 4)
  | .rdb b k => .access agent (.read (windowAddr b k) 1)
  | .cmd i => .access agent (.write (regAddr .cmd) 4 (encode i))
  | .poll => .poll agent

/-- The bus operations of a script (R93). -/
def scriptEvents (agent : Nat) (ls : List Line) : List HostEvent := ls.map (lineEvent agent)

/-- A command and its `poll` (R93): the pseudo-instructions `clear`, `peek`, `consume`, `atend`, `xfer`, `vdec`,
`deflate`, `inflate` on their command. -/
def pseudoCommand (i : Instr) : List Line := [.cmd i, .poll]

/-- `iapp c` (R93). -/
def pseudoIapp (c : Byte) : List Line := .wr .value (zextChar c) :: pseudoCommand .iappend

/-- `iapps "s"` (R93). -/
def pseudoIapps (s : List Byte) : List Line := s.flatMap pseudoIapp

/-- `oapp c` (R93). -/
def pseudoOapp (c : Byte) : List Line := .wr .value (zextChar c) :: pseudoCommand .oappend

/-- `oapps "s"` (R93). -/
def pseudoOapps (s : List Byte) : List Line := s.flatMap pseudoOapp

/-- `expand d, l` (R93). -/
def pseudoExpand (d l : Word) : List Line := .wr .dist d :: .wr .len l :: pseudoCommand .expand

/-- `venc v` (R93). -/
def pseudoVenc (v : Word) : List Line := .wr .value v :: pseudoCommand .venc

end Sys2Proof.Machine
end

