-- ==== Sys2Proof/Safety.lean ====
section
/-! DEFINITION. The invariant of the block, and the terms claims are stated in. -/

namespace Sys2Proof.Machine

/-- The invariants the spec states (10_state.md R24, R26, R29) and the ones of the model's own form. -/
structure BlockInv (s : State) : Prop where
  /-- `IBUF`'s cells are in canonical form and are cells the buffer has. -/
  ibuf_wf : s.ibuf.wf = true ∧ s.ibuf.bounded = true
  /-- `OBUF`'s cells are in canonical form and are cells the buffer has. -/
  obuf_wf : s.obuf.wf = true ∧ s.obuf.bounded = true
  /-- `ICUR <= ILEN` (R26). -/
  cursor : s.icur ≤ s.ilen
  /-- `ILEN <= CAP` (R26). -/
  ilen_cap : s.ilen ≤ Config.cap
  /-- `OLEN <= CAP` (R29). -/
  olen_cap : s.olen ≤ Config.cap
  /-- STATUS holds a pair the block produces (R24, 60_exceptions.md R242). -/
  status : statusLegal s = true
  /-- Every character the buffers hold is a kept character, but for what an error left unspecified (R26, R29,
  60_exceptions.md R243; log 3). -/
  kept : s.err = false → (∀ c ∈ textOf .ibuf s, keep c = true) ∧ (∀ c ∈ textOf .obuf s, keep c = true)
  /-- An idle engine holds no command word (10_state.md R32; log 11). -/
  idle : s.busy = false → s.cmd = 0#32 ∧ s.wait = 0

/-! What two states agree on. -/

/-- `BUSY` = 0 and the engine holds nothing. -/
def idleEngine (t : State) : Prop := t.busy = false ∧ t.cmd = 0#32 ∧ t.wait = 0

/-- `VALUE`, `DIST` and `LEN` are unchanged. -/
def sameOperands (s t : State) : Prop := t.value = s.value ∧ t.dist = s.dist ∧ t.len = s.len

/-- `IBUF`, `ILEN` and `ICUR` are unchanged. -/
def sameInput (s t : State) : Prop := t.ibuf = s.ibuf ∧ t.ilen = s.ilen ∧ t.icur = s.icur

/-- `OBUF` and `OLEN` are unchanged. -/
def sameOutput (s t : State) : Prop := t.obuf = s.obuf ∧ t.olen = s.olen

/-- `STATUS.ERR`, `ECODE` and `CAUSE` are unchanged. -/
def sameError (s t : State) : Prop := t.err = s.err ∧ t.ecode = s.ecode ∧ t.cause = s.cause

/-- The parameter and the host's side are unchanged. -/
def sameOutside (s t : State) : Prop :=
  t.allocMayFail = s.allocMayFail ∧ t.agent = s.agent ∧ t.host = s.host ∧ t.replies = s.replies

/-- `STATUS` reports the error with this `ECODE` and this `CAUSE`. -/
def errorIs (t : State) (ecode cause : BitVec 4) : Prop := t.err = true ∧ t.ecode = ecode ∧ t.cause = cause

/-- Cells of a buffer outside `lo` up to `hi` read as before. -/
def sameCellsOutside (m m' : Memory) (lo hi : Nat) : Prop := ∀ a, a < lo ∨ hi ≤ a → m'.read a = m.read a

/-! Who moves next. -/

/-- The engine moves next. -/
def engineNext (s : State) : Prop := statusLegal s = true ∧ s.busy = true ∧ (s.wait = 0 ∨ s.host = [])

/-- The host moves next, with the event `e`. -/
def hostNext (s : State) (e : HostEvent) (rest : List HostEvent) : Prop :=
  statusLegal s = true ∧ s.host = e :: rest ∧ (s.busy = false ∨ 0 < s.wait)

/-- The block serves this host agent, or none yet. -/
def admitted (s : State) (agent : Nat) : Prop := s.agent = none ∨ s.agent = some agent

/-! The compressed text as a list of items (30_encoding.md R84), independent of the decompressor's loop. -/

/-- An item of the grammar of R84. -/
inductive Item where
  | literal (c : Byte)
  | qref (dist len : List Byte)
  | aref (d1 d0 : Byte) (len : List Byte)
  deriving DecidableEq, Repr

/-- The characters of an item (R84). -/
def itemText (x : Item) : List Byte :=
  match x with
  | .literal c => [c]
  | .qref d l => nearMark :: (d ++ l)
  | .aref d1 d0 l => farMark :: d1 :: d0 :: l

/-- The value of a text that is one variable-length value and nothing more (R84). -/
def wholeValue (t : List Byte) : Option Nat :=
  match decodeValue t with
  | .ok v [] => some v
  | .ok _ (_ :: _) => none
  | .bad _ => none

/-- `l` characters copied from distance `d` before the end of `out`, repeating the last `d` with period `d`
(42_buffer.md R147). -/
def copied (out : List Byte) (d l : Nat) : List Byte :=
  (List.range l).map (fun k => out.getD (out.length - d + k % d) 0#8)

/-- A back-reference on the output so far: none where it is invalid or passes the ceiling (44_inflate.md R214,
R215). -/
def applyRef (out : List Byte) (d l : Nat) : Option (List Byte) :=
  if 1 ≤ d ∧ 1 ≤ l ∧ d ≤ out.length ∧ out.length + l ≤ Config.cap then some (out ++ copied out d l) else none

/-- What an item makes of the output so far (44_inflate.md R211 to R216). -/
def applyItem (out : List Byte) (x : Item) : Option (List Byte) :=
  match x with
  | .literal c => if tokenChar c = true ∧ out.length < Config.cap then some (out ++ [c]) else none
  | .qref d l =>
    match wholeValue d, wholeValue l with
    | some d, some l => applyRef out d l
    | some _, none => none
    | none, _ => none
  | .aref d1 d0 l =>
    if isDigit d1 = true ∧ isDigit d0 = true then
      match wholeValue l with
      | some l => applyRef out (digval d1 * 64 + digval d0) l
      | none => none
    else none

/-- What a list of items decompresses to, from the output so far. -/
def applyItems (out : List Byte) (xs : List Item) : Option (List Byte) :=
  match xs with
  | [] => some out
  | x :: xs =>
    match applyItem out x with
    | some out' => applyItems out' xs
    | none => none

/-- The error a back-reference as read raises on the output so far, if any: validity before the ceiling
(44_inflate.md R214, R215, R217). -/
def refError (out : List Byte) (p : Parsed Backref) : Option Err :=
  match p with
  | .bad e => some e
  | .ok r _ =>
    if r.dist = 0 ∨ r.len = 0 ∨ out.length < r.dist then some .invalidBackref
    else if Config.cap < out.length + r.len then some .tooLong
    else none

/-- The error the next item of the text raises on the output so far, if any (44_inflate.md R210). -/
def itemError (out : List Byte) (t : List Byte) : Option Err :=
  match t with
  | [] => none
  | c :: rest =>
    if c = nearMark then refError out (readNear rest)
    else if c = farMark then refError out (readFar rest)
    else if keep c = true ∧ Config.cap ≤ out.length then some .tooLong
    else none

end Sys2Proof.Machine
end

