-- ==== Sys2Proof/Certificates/Slice0/Obligations.lean ====
section
/-! DEFINITION. The statements about the block. Each names the rule it formalises or the sections it rests on. -/

open Sys2Proof Sys2Proof.Machine

/-! Encoding. -/

/-- 30_encoding.md R87: the opcode map, the twelve commands and the reserved opcodes. -/
def Obligations.OpcodeMapDecodes : Prop :=
  decodeWord 0x00000001#32 = .command .clear ∧ decodeWord 0x00000002#32 = .command .iappend ∧
  decodeWord 0x00000003#32 = .command .oappend ∧ decodeWord 0x00000004#32 = .command .peek ∧
  decodeWord 0x00000005#32 = .command .consume ∧ decodeWord 0x00000006#32 = .command .atend ∧
  decodeWord 0x00000007#32 = .command .expand ∧ decodeWord 0x00000008#32 = .command .xfer ∧
  decodeWord 0x00000009#32 = .command .venc ∧ decodeWord 0x0000000A#32 = .command .vdec ∧
  decodeWord 0x0000000B#32 = .command .deflate ∧ decodeWord 0x0000000C#32 = .command .inflate ∧
  (∀ w : Word, w.toNat % 16 = 0 ∨ 13 ≤ w.toNat % 16 → decodeWord w = .illegal .reservedOpcode)

/-- 30_encoding.md sections R86 and R87: decoding the word of a well-formed command gives the command. -/
def Obligations.DecodeOfEncodeIsTheCommand : Prop :=
  ∀ i : Instr, i.wellFormed = true → wordWellFormed (encode i) = true ∧ decodeWord (encode i) = .command i

/-- 30_encoding.md sections R86 to R88: a word that decodes to a command is that command's one word. -/
def Obligations.OnlyItsOwnWordDecodesToACommand : Prop :=
  ∀ (w : Word) (i : Instr), decodeWord w = .command i → w = encode i

/-- 30_encoding.md R88: an illegal command word raises ILLEGAL_CMD, a reserved opcode before reserved bits, and
changes no state but STATUS. -/
def Obligations.IllegalWordChangesOnlyStatus : Prop :=
  ∀ s : State, engineNext s → s.err = false →
    (s.cmd.toNat % 16 = 0 ∨ 13 ≤ s.cmd.toNat % 16 ∨ s.cmd.toNat / 16 ≠ 0) →
    ∃ t, step s = .next t ∧
      errorIs t 4#4 (if s.cmd.toNat % 16 = 0 ∨ 13 ≤ s.cmd.toNat % 16 then 1#4 else 2#4) ∧
      idleEngine t ∧ sameOperands s t ∧ sameInput s t ∧ sameOutput s t ∧ sameOutside s t ∧ t.draws = s.draws

/-! The step. -/

/-- 20_memory.md section 3 and 30_encoding.md section 4: where the engine moves next and the latched word decodes to
a command, the step is that command; and so it is for a word placed by `withFetchWord`. -/
def Obligations.StepRunsTheDecodedCommand : Prop :=
  (∀ (s : State) (i : Instr), engineNext s → decodeWord s.cmd = .command i → step s = exec i s) ∧
  (∀ (s : State) (i : Instr), statusLegal s = true →
    step (s.withFetchWord 32 (encode i).toNat) = exec i (placeCommand (encode i) s))

/-- 70_reset_and_hazards.md R270: the reset values. -/
def Obligations.ResetValuesOfTheBlock : Prop :=
  State.reset.busy = false ∧ State.reset.err = false ∧ State.reset.ecode = 0#4 ∧ State.reset.cause = 0#4 ∧
  State.reset.value = 0#32 ∧ State.reset.dist = 0#32 ∧ State.reset.len = 0#32 ∧
  State.reset.ilen = 0 ∧ State.reset.icur = 0 ∧ State.reset.olen = 0 ∧
  textOf .ibuf State.reset = [] ∧ textOf .obuf State.reset = []

/-- 70_reset_and_hazards.md R271, with R270's values: the reset input, also while a command runs, leaves every
element at its reset value and the block idle. -/
def Obligations.ResetInputAbandonsTheCommand : Prop :=
  ∀ (s : State) (rest : List HostEvent), hostNext s .reset rest →
    ∃ t, step s = .next t ∧ idleEngine t ∧ t.err = false ∧ t.ecode = 0#4 ∧ t.cause = 0#4 ∧
      t.value = 0#32 ∧ t.dist = 0#32 ∧ t.len = 0#32 ∧ t.ilen = 0 ∧ t.icur = 0 ∧ t.olen = 0 ∧
      textOf .ibuf t = [] ∧ textOf .obuf t = []

/-- 70_reset_and_hazards.md section 1 and 60_exceptions.md section 4: an idle block with no access pending stays as
it is. -/
def Obligations.IdleBlockWaits : Prop :=
  ∀ s : State, statusLegal s = true → s.busy = false → s.host = [] → step s = .next s

/-! The buffer commands. -/

/-- 42_buffer.md R141: CLEAR empties both buffers and clears the error, in every state. -/
def Obligations.ClearEmptiesAndRecovers : Prop :=
  ∀ s : State, ∃ t, exec .clear s = .next t ∧ t.ilen = 0 ∧ t.icur = 0 ∧ t.olen = 0 ∧
    t.err = false ∧ t.ecode = 0#4 ∧ t.cause = 0#4 ∧ idleEngine t ∧ sameOperands s t ∧
    t.ibuf = s.ibuf ∧ t.obuf = s.obuf ∧ sameOutside s t ∧ t.draws = s.draws

/-- 42_buffer.md R142: IAPPEND stores a kept character, discards any other, and raises FORMAT_TOO_LONG for a kept
one in a full buffer, where `ALLOC_MAY_FAIL` is false (the other case: `AllocationFailsOnlyByDraw`). -/
def Obligations.IappendStoresOrDiscards : Prop :=
  ∀ s : State, s.err = false → s.allocMayFail = false →
    ∃ t, exec .iappend s = .next t ∧ idleEngine t ∧ sameOperands s t ∧ sameOutput s t ∧ sameOutside s t ∧
      t.icur = s.icur ∧
      (if keep (s.value.setWidth 8) = false then sameInput s t ∧ sameError s t
       else if s.ilen < Config.cap then
         textOf .ibuf t = textOf .ibuf s ++ [s.value.setWidth 8] ∧ t.ilen = s.ilen + 1 ∧ sameError s t ∧
         sameCellsOutside s.ibuf t.ibuf s.ilen (s.ilen + 1)
       else errorIs t 3#4 0#4)

/-- 42_buffer.md R143: OAPPEND, as IAPPEND on the output buffer, where `ALLOC_MAY_FAIL` is false. -/
def Obligations.OappendStoresOrDiscards : Prop :=
  ∀ s : State, s.err = false → s.allocMayFail = false →
    ∃ t, exec .oappend s = .next t ∧ idleEngine t ∧ sameOperands s t ∧ sameInput s t ∧ sameOutside s t ∧
      (if keep (s.value.setWidth 8) = false then sameOutput s t ∧ sameError s t
       else if s.olen < Config.cap then
         textOf .obuf t = textOf .obuf s ++ [s.value.setWidth 8] ∧ t.olen = s.olen + 1 ∧ sameError s t ∧
         sameCellsOutside s.obuf t.obuf s.olen (s.olen + 1)
       else errorIs t 3#4 0#4)

/-- 42_buffer.md R144: PEEK gives the next unread character, or 0 at the end, and moves nothing. -/
def Obligations.PeekGivesTheNextCharacter : Prop :=
  ∀ s : State, s.err = false →
    ∃ t, exec .peek s = .next t ∧
      t.value = (if s.icur < s.ilen then (s.ibuf.read s.icur).setWidth 32 else 0#32) ∧
      t.dist = s.dist ∧ t.len = s.len ∧ sameInput s t ∧ sameOutput s t ∧ sameError s t ∧ sameOutside s t ∧
      idleEngine t ∧ t.draws = s.draws

/-- 42_buffer.md R145: CONSUME gives the next unread character and moves past it, and raises TRUNCATED at the end. -/
def Obligations.ConsumeAdvancesOrIsTruncated : Prop :=
  ∀ s : State, s.err = false → s.icur ≤ s.ilen →
    ∃ t, exec .consume s = .next t ∧ t.dist = s.dist ∧ t.len = s.len ∧ t.ibuf = s.ibuf ∧ t.ilen = s.ilen ∧
      sameOutput s t ∧ sameOutside s t ∧ idleEngine t ∧
      (if s.icur < s.ilen then
         t.value = (s.ibuf.read s.icur).setWidth 32 ∧ t.icur = s.icur + 1 ∧ sameError s t ∧ t.draws = s.draws
       else errorIs t 2#4 3#4 ∧ t.icur ≤ t.ilen)

/-- 42_buffer.md R146: ATEND answers 1 at the end of the input and 0 before it. -/
def Obligations.AtendAnswersInValue : Prop :=
  ∀ s : State, s.err = false →
    ∃ t, exec .atend s = .next t ∧ t.value = (if s.icur = s.ilen then 1#32 else 0#32) ∧
      t.dist = s.dist ∧ t.len = s.len ∧ sameInput s t ∧ sameOutput s t ∧ sameError s t ∧ sameOutside s t ∧
      idleEngine t ∧ t.draws = s.draws

/-- 42_buffer.md section 5: EXPAND copies character by character, refuses a bad back-reference, and raises
FORMAT_TOO_LONG past the ceiling, the sum taken without wrap-around. After a bad back-reference `OBUF` and `OLEN` are
unchanged (this section) or unspecified (60_exceptions.md section 2), by a draw of the model (log 2). -/
def Obligations.ExpandCopiesOrRefuses : Prop :=
  ∀ s : State, s.err = false → s.allocMayFail = false → (∀ c ∈ textOf .obuf s, keep c = true) →
    ∃ t, exec .expand s = .next t ∧ idleEngine t ∧ sameOperands s t ∧ sameInput s t ∧ sameOutside s t ∧
      (if s.dist = 0#32 ∨ s.len = 0#32 ∨ s.olen < s.dist.toNat then
         errorIs t 2#4 2#4 ∧ (if Config.expandKeeps s.draws = true then sameOutput s t else t.olen ≤ Config.cap)
       else if Config.cap < s.olen + s.len.toNat then errorIs t 3#4 0#4
       else sameError s t ∧ t.olen = s.olen + s.len.toNat ∧
         (∀ k, k < s.len.toNat → t.obuf.read (s.olen + k) = t.obuf.read (s.olen - s.dist.toNat + k)) ∧
         sameCellsOutside s.obuf t.obuf s.olen (s.olen + s.len.toNat))

/-- 42_buffer.md R147: an expansion copies from `DIST` before the end, repeating the last `DIST` characters with that
period where it reads what it wrote itself. -/
def Obligations.ExpandRepeatsWithPeriod : Prop :=
  ∀ s : State, s.err = false → s.allocMayFail = false → (∀ c ∈ textOf .obuf s, keep c = true) →
    1 ≤ s.dist.toNat → 1 ≤ s.len.toNat → s.dist.toNat ≤ s.olen → s.olen + s.len.toNat ≤ Config.cap →
    ∃ t, exec .expand s = .next t ∧ sameError s t ∧
      textOf .obuf t = textOf .obuf s ++ copied (textOf .obuf s) s.dist.toNat s.len.toNat

/-- 42_buffer.md R149: XFER moves the output text to the input buffer and empties the output. -/
def Obligations.XferMovesTheText : Prop :=
  ∀ s : State, s.err = false → s.ibuf.wf = true →
    ∃ t, exec .xfer s = .next t ∧ textOf .ibuf t = textOf .obuf s ∧ t.ilen = s.olen ∧ t.icur = 0 ∧ t.olen = 0 ∧
      t.obuf = s.obuf ∧ sameCellsOutside s.ibuf t.ibuf 0 s.olen ∧
      sameOperands s t ∧ sameError s t ∧ sameOutside s t ∧ idleEngine t ∧ t.draws = s.draws

/-! The variable-length integer codec. -/

/-- 30_encoding.md R71: the digits of the values, which characters are digits, and that `digit` and `digval` are
inverse bijections between 0..63 and the digit characters. -/
def Obligations.DigitsAreABijection : Prop :=
  (∀ v : Fin 64, digit v.val =
    if v.val < 10 then BitVec.ofNat 8 (0x30 + v.val)
    else if v.val < 36 then BitVec.ofNat 8 (0x61 + v.val - 10)
    else if v.val < 62 then BitVec.ofNat 8 (0x41 + v.val - 36)
    else if v.val = 62 then 0x3A#8 else 0x3B#8) ∧
  (∀ c : Byte, isDigit c = true ↔
    (0x30 ≤ c.toNat ∧ c.toNat ≤ 0x39) ∨ (0x61 ≤ c.toNat ∧ c.toNat ≤ 0x7A) ∨ (0x41 ≤ c.toNat ∧ c.toNat ≤ 0x5A) ∨
      c = 0x3A#8 ∨ c = 0x3B#8) ∧
  (∀ v : Fin 64, isDigit (digit v.val) = true ∧ digval (digit v.val) = v.val) ∧
  (∀ c : Byte, isDigit c = true → digval c < 64 ∧ digit (digval c) = c)

/-- 30_encoding.md section 1: a kept character is of exactly one class, and no other character is of any. -/
def Obligations.KeptCharactersFallIntoFiveClasses : Prop :=
  (∀ c : Byte, [isDigit c, isTier c, decide (longDigits c ≠ 0), isBref c, isOther c].count true =
    if keep c then 1 else 0) ∧
  ((List.finRange 256).countP (fun n => keep (BitVec.ofNat 8 n.val)) = 83)

/-- 30_encoding.md R80: the length law of the encoder. -/
def Obligations.EncodedLengthLaw : Prop :=
  ∀ v : Nat, (encodeValue v).length =
    if v < 64 then 1 else if v < 896 then 2 else if v < 4096 then 3 else if v < 262144 then 4 else 5

/-- 41_varint.md section 5: decoding an encoded value gives the value and leaves what follows. -/
def Obligations.DecodeValueInvertsEncodeValue : Prop :=
  ∀ (v : Nat) (rest : List Byte), v < 16777216 → decodeValue (encodeValue v ++ rest) = .ok v rest

/-- 30_encoding.md section 2 and 41_varint.md section 3: the first character alone tells the form; a TIER character
and a digit, and `'<'`, `'='`, `'>'` and 2, 3, 4 digits, give the big-endian number, whatever the digits (that
non-canonical forms decode is the spec's own inference in 30_encoding.md section 2); a text that ends early is
TRUNCATED, any other character where a value starts or a digit is needed INVALID_NUMERIC (the causes are the spec's
own decision in 41_varint.md section 3). -/
def Obligations.DecodeValueReadsEveryForm : Prop :=
  (∀ (c : Byte) (rest : List Byte), isDigit c = true → decodeValue (c :: rest) = .ok (digval c) rest) ∧
  (∀ (c d : Byte) (rest : List Byte), 0x23 ≤ c.toNat → c.toNat ≤ 0x2F → isDigit d = true →
    decodeValue (c :: d :: rest) = .ok ((c.toNat - 0x22) * 64 + digval d) rest) ∧
  (∀ (a b : Byte) (rest : List Byte), isDigit a = true → isDigit b = true →
    decodeValue (0x3C#8 :: a :: b :: rest) = .ok (digval a * 64 + digval b) rest) ∧
  (∀ (a b c : Byte) (rest : List Byte), isDigit a = true → isDigit b = true → isDigit c = true →
    decodeValue (0x3D#8 :: a :: b :: c :: rest) = .ok (digval a * 64 ^ 2 + digval b * 64 + digval c) rest) ∧
  (∀ (a b c d : Byte) (rest : List Byte), isDigit a = true → isDigit b = true → isDigit c = true →
    isDigit d = true → decodeValue (0x3E#8 :: a :: b :: c :: d :: rest) =
      .ok (digval a * 64 ^ 3 + digval b * 64 ^ 2 + digval c * 64 + digval d) rest) ∧
  decodeValue [] = .bad .truncated ∧
  (∀ (c : Byte) (rest : List Byte), isDigit c = false → ¬(0x23 ≤ c.toNat ∧ c.toNat ≤ 0x2F) → c ≠ 0x3C#8 →
    c ≠ 0x3D#8 → c ≠ 0x3E#8 → decodeValue (c :: rest) = .bad .invalidNumeric) ∧
  (∀ (c : Byte) (n : Nat) (ds : List Byte),
    (0x23 ≤ c.toNat ∧ c.toNat ≤ 0x2F ∧ n = 1) ∨ (c = 0x3C#8 ∧ n = 2) ∨ (c = 0x3D#8 ∧ n = 3) ∨
      (c = 0x3E#8 ∧ n = 4) →
    ds.length < n → (∀ d ∈ ds, isDigit d = true) →
    decodeValue (c :: ds) = .bad .truncated ∧
    ∀ (x : Byte) (rest : List Byte), isDigit x = false → decodeValue (c :: (ds ++ x :: rest)) = .bad .invalidNumeric)

/-- 41_varint.md section 5: every value has one canonical encoding of its own. -/
def Obligations.EncodeValueIsInjective : Prop :=
  ∀ v w : Nat, v < 16777216 → w < 16777216 → encodeValue v = encodeValue w → v = w

/-- 41_varint.md sections 3 and 4: a decoded value is below 2^24 and takes 1 to 5 characters. -/
def Obligations.DecodedValueIsInRange : Prop :=
  ∀ (t rest : List Byte) (v : Nat), decodeValue t = .ok v rest →
    v < 16777216 ∧ ∃ used, t = used ++ rest ∧ 1 ≤ used.length ∧ used.length ≤ 5

/-- 41_varint.md section 2: VENC appends the encoding of `VALUE`, raises VALUE_RANGE with no other change, and
FORMAT_TOO_LONG where the encoding does not fit. -/
def Obligations.VencAppendsTheEncoding : Prop :=
  ∀ s : State, s.err = false → s.allocMayFail = false →
    ∃ t, exec .venc s = .next t ∧ idleEngine t ∧ sameOperands s t ∧ sameInput s t ∧ sameOutside s t ∧
      (if 16777216 ≤ s.value.toNat then errorIs t 1#4 1#4 ∧ sameOutput s t ∧ t.draws = s.draws
       else if s.olen + (encodeValue s.value.toNat).length ≤ Config.cap then
         sameError s t ∧ textOf .obuf t = textOf .obuf s ++ encodeValue s.value.toNat ∧
         t.olen = s.olen + (encodeValue s.value.toNat).length ∧ sameCellsOutside s.obuf t.obuf s.olen t.olen
       else errorIs t 3#4 0#4)

/-- 41_varint.md section 4: VDEC puts the decoded value into `VALUE` and moves the cursor past it, or raises the
decoder's error. -/
def Obligations.VdecDecodesIntoValue : Prop :=
  ∀ s : State, s.err = false → s.icur ≤ s.ilen →
    ∃ t, exec .vdec s = .next t ∧ t.dist = s.dist ∧ t.len = s.len ∧ t.ibuf = s.ibuf ∧ t.ilen = s.ilen ∧
      sameOutput s t ∧ sameOutside s t ∧ idleEngine t ∧
      (match decodeValue (unread s) with
       | .ok v rest =>
         t.value.toNat = v ∧ unread t = rest ∧ s.icur + 1 ≤ t.icur ∧ t.icur ≤ s.icur + 5 ∧ t.icur ≤ t.ilen ∧
         sameError s t ∧ t.draws = s.draws
       | .bad e => (e = .truncated ∨ e = .invalidNumeric) ∧ errorIs t 2#4 (if e = .truncated then 3#4 else 1#4) ∧
         t.icur ≤ t.ilen)

/-- 41_varint.md section 5: with an encoded value at the cursor, VDEC gives the value and moves past its encoding,
whatever follows. -/
def Obligations.VdecReadsAnEncodedValue : Prop :=
  ∀ (s : State) (v : Nat) (rest : List Byte), s.err = false → v < 16777216 → unread s = encodeValue v ++ rest →
    ∃ t, exec .vdec s = .next t ∧ t.value.toNat = v ∧ t.icur = s.icur + (encodeValue v).length ∧ unread t = rest ∧
      sameError s t ∧ t.ibuf = s.ibuf ∧ t.ilen = s.ilen ∧ sameOutput s t

/-! The compressor. -/

/-- 43_deflate.md R182: `matchLen` is the largest length over which the two ranges are equal. -/
def Obligations.MatchLenIsTheLargest : Prop :=
  ∀ (s : List Byte) (j i : Nat), j < i → i < s.length →
    i + matchLen s j i ≤ s.length ∧
    (∀ k, k < matchLen s j i → s.getD (j + k) 0#8 = s.getD (i + k) 0#8) ∧
    (∀ l, i + l ≤ s.length → (∀ k, k < l → s.getD (j + k) 0#8 = s.getD (i + k) 0#8) → l ≤ matchLen s j i)

/-- 43_deflate.md R183: the best match is the longest of the candidates, and of those the nearest; there is none
exactly where no candidate has length 4. -/
def Obligations.BestMatchIsLongestThenNearest : Prop :=
  ∀ (s : List Byte) (i : Nat),
    ((bestMatch s i).len = 0 ∧ ∀ d, 1 ≤ d → d ≤ i → d ≤ 4095 → matchLen s (i - d) i < 4) ∨
    (4 ≤ (bestMatch s i).len ∧ 1 ≤ (bestMatch s i).dist ∧ (bestMatch s i).dist ≤ i ∧ (bestMatch s i).dist ≤ 4095 ∧
      (bestMatch s i).len = matchLen s (i - (bestMatch s i).dist) i ∧
      ∀ d, 1 ≤ d → d ≤ i → d ≤ 4095 → matchLen s (i - d) i ≤ (bestMatch s i).len ∧
        (matchLen s (i - d) i = (bestMatch s i).len → (bestMatch s i).dist ≤ d))

/-- 43_deflate.md R184 to R187: the compressor's loop. From position `i` with 4 characters left it emits `s[i]` and
goes on at `i + 1` where there is no match, or one of length 4 at distance 64 or more; else the near or the far token
of the best match, and goes on at `i` plus its length; with fewer left it emits them. `fuel` only has to be enough. -/
def Obligations.CompressorFollowsItsLoop : Prop :=
  (∀ s : List Byte, deflate s = deflateFrom s s.length 0) ∧
  (∀ (s : List Byte) (fuel i : Nat), s.length - i ≤ fuel →
    deflateFrom s fuel i =
      if i + 4 ≤ s.length then
        if (bestMatch s i).len = 0 ∨ ((bestMatch s i).len = 4 ∧ 64 ≤ (bestMatch s i).dist) then
          s.getD i 0#8 :: deflateFrom s fuel (i + 1)
        else if (bestMatch s i).dist < 64 then
          0x3F#8 :: digit (bestMatch s i).dist :: (encodeValue (bestMatch s i).len ++
            deflateFrom s fuel (i + (bestMatch s i).len))
        else
          0x40#8 :: digit ((bestMatch s i).dist / 64) :: digit ((bestMatch s i).dist % 64) ::
            (encodeValue (bestMatch s i).len ++ deflateFrom s fuel (i + (bestMatch s i).len))
      else s.drop i) ∧
  (∀ (s : List Byte) (i : Nat),
    ¬((bestMatch s i).len = 0 ∨ ((bestMatch s i).len = 4 ∧ 64 ≤ (bestMatch s i).dist)) →
    1 ≤ (bestMatch s i).dist ∧ (bestMatch s i).dist ≤ 4095 ∧ 4 ≤ (bestMatch s i).len ∧
    (64 ≤ (bestMatch s i).dist → 5 ≤ (bestMatch s i).len))

/-- 43_deflate.md R188: a text of fewer than 4 characters compresses to itself. -/
def Obligations.ShortInputIsUnchanged : Prop :=
  ∀ s : List Byte, s.length < 4 → deflate s = s

/-- 43_deflate.md section 3: every emitted token is strictly shorter than the characters it replaces. -/
def Obligations.EveryTokenIsShorter : Prop :=
  ∀ (s : List Byte) (i : Nat), i < s.length → isLiteral (bestMatch s i) = false →
    (tokenOf (bestMatch s i)).length < (bestMatch s i).len ∧ i + (bestMatch s i).len ≤ s.length

/-- 43_deflate.md section 3: the compressed text is never longer than the text. -/
def Obligations.DeflateNeverGrows : Prop :=
  ∀ s : List Byte, (deflate s).length ≤ s.length

/-- 43_deflate.md section 2: DEFLATE puts the compressed unread text into the empty output buffer and moves the cursor to
the end; with a non-empty output it raises OUTPUT_NOT_EMPTY and changes nothing else. -/
def Obligations.DeflateCompressesTheUnreadText : Prop :=
  ∀ s : State, s.err = false → s.allocMayFail = false → s.ilen ≤ Config.cap → (∀ c ∈ unread s, keep c = true) →
    ∃ t, exec .deflate s = .next t ∧ idleEngine t ∧ sameOperands s t ∧ t.ibuf = s.ibuf ∧ t.ilen = s.ilen ∧
      sameOutside s t ∧ t.draws = s.draws ∧
      (if s.olen ≠ 0 then errorIs t 1#4 2#4 ∧ sameInput s t ∧ sameOutput s t
       else sameError s t ∧ textOf .obuf t = deflate (unread s) ∧ t.olen = (deflate (unread s)).length ∧
         t.icur = s.ilen ∧ sameCellsOutside s.obuf t.obuf 0 t.olen)

/-! The decompressor. -/

/-- 44_inflate.md section 1 over the grammar of 30_encoding.md section 3: an input that is a list of valid items
inflates to what the items stand for. -/
def Obligations.InflateDecodesTheGrammar : Prop :=
  ∀ (s : State) (xs : List Item) (out : List Byte), s.err = false → s.olen = 0 → s.allocMayFail = false →
    unread s = xs.flatMap itemText → applyItems [] xs = some out →
    ∃ t, exec .inflate s = .next t ∧ idleEngine t ∧ textOf .obuf t = out ∧ t.olen = out.length ∧ t.icur = s.ilen ∧
      t.ibuf = s.ibuf ∧ t.ilen = s.ilen ∧ sameOperands s t ∧ sameError s t ∧ sameOutside s t ∧
      sameCellsOutside s.obuf t.obuf 0 t.olen

/-- 44_inflate.md sections 2 and 3: after valid items, the first item that fails decides the error; the input cells
and the operand registers keep their values. -/
def Obligations.InflateReportsTheFirstError : Prop :=
  ∀ (s : State) (xs : List Item) (out tail : List Byte) (e : Err), s.err = false → s.olen = 0 →
    s.allocMayFail = false → unread s = xs.flatMap itemText ++ tail →
    applyItems [] xs = some out → itemError out tail = some e →
    ∃ t, exec .inflate s = .next t ∧ idleEngine t ∧ errorIs t (errCode e) (errCause e) ∧ t.ibuf = s.ibuf ∧
      t.ilen = s.ilen ∧ sameOperands s t ∧ sameOutside s t ∧ t.icur ≤ t.ilen ∧ t.olen ≤ Config.cap

/-- 44_inflate.md section 2: INFLATE with a non-empty output raises OUTPUT_NOT_EMPTY and changes no other state. -/
def Obligations.InflateNeedsAnEmptyOutput : Prop :=
  ∀ s : State, s.err = false → s.olen ≠ 0 →
    ∃ t, exec .inflate s = .next t ∧ errorIs t 1#4 2#4 ∧ idleEngine t ∧ sameOperands s t ∧ sameInput s t ∧
      sameOutput s t ∧ sameOutside s t ∧ t.draws = s.draws

/-- 43_deflate.md section 3 and 44_inflate.md section 3: on the token alphabet, DEFLATE, XFER and INFLATE one after
another give the unread text back. -/
def Obligations.InflateUndoesDeflate : Prop :=
  ∀ s : State, s.err = false → s.allocMayFail = false → s.olen = 0 → s.ilen ≤ Config.cap →
    s.ibuf.wf = true → (∀ c ∈ unread s, tokenChar c = true) →
    ∃ a b t, exec .deflate s = .next a ∧ exec .xfer a = .next b ∧ exec .inflate b = .next t ∧
      textOf .obuf t = unread s ∧ t.err = false ∧ t.icur = t.ilen

/-! Errors. -/

/-- 60_exceptions.md section 1: every command completes, in every state, and leaves the engine idle. -/
def Obligations.EveryCommandCompletes : Prop :=
  ∀ (i : Instr) (s : State), ∃ t, exec i s = .next t ∧ idleEngine t

/-- 60_exceptions.md R244: while `ERR` = 1 every command word but 0x0000_0001 completes with no change, and at once:
the step after its `CMD` write is its completion, with no host access between; CLEAR clears the error, and so does
reset. -/
def Obligations.ErrorIsStickyUntilClear : Prop :=
  (∀ s : State, engineNext s → s.err = true → s.cmd ≠ 0x00000001#32 →
    ∃ t, step s = .next t ∧ idleEngine t ∧ sameOperands s t ∧ sameInput s t ∧ sameOutput s t ∧ sameError s t ∧
      sameOutside s t ∧ t.draws = s.draws) ∧
  (∀ s : State, engineNext s → s.err = true → s.cmd = 0x00000001#32 →
    ∃ t, step s = .next t ∧ t.err = false ∧ t.ecode = 0#4 ∧ t.cause = 0#4 ∧ t.ilen = 0 ∧ t.icur = 0 ∧ t.olen = 0) ∧
  (∀ (s : State) (a : Nat) (w : Word) (rest : List HostEvent), s.err = true → s.busy = false → w ≠ 0x00000001#32 →
    admitted s a → hostNext s (.access a (.write 0x0000000#26 4 w)) rest →
    ∃ t u, step s = .next t ∧ step t = .next u ∧ idleEngine u ∧ sameOperands s u ∧ sameInput s u ∧ sameOutput s u ∧
      sameError s u ∧ u.host = rest ∧ u.replies = s.replies) ∧
  (∀ (s : State) (rest : List HostEvent), hostNext s .reset rest → ∃ t, step s = .next t ∧ t.err = false)

/-- 60_exceptions.md section 2: an error changes STATUS; PRECONDITION changes nothing else, any other leaves the
elements outside the command's write set alone and keeps the invariants of the lengths and the cursor. -/
def Obligations.ErrorKeepsWhatIsOutsideTheWriteSet : Prop :=
  ∀ (i : Instr) (s t : State), exec i s = .next t → s.err = false → t.err = true →
    sameOutside s t ∧ idleEngine t ∧ t.dist = s.dist ∧ t.len = s.len ∧
    (t.ecode = 1#4 → sameOperands s t ∧ sameInput s t ∧ sameOutput s t) ∧
    (Element.value ∉ writeSet i → t.value = s.value) ∧ (Element.ibuf ∉ writeSet i → t.ibuf = s.ibuf) ∧
    (Element.ilen ∉ writeSet i → t.ilen = s.ilen) ∧ (Element.icur ∉ writeSet i → t.icur = s.icur) ∧
    (Element.obuf ∉ writeSet i → t.obuf = s.obuf) ∧ (Element.olen ∉ writeSet i → t.olen = s.olen) ∧
    (s.icur ≤ s.ilen → s.ilen ≤ Config.cap → s.olen ≤ Config.cap →
      t.icur ≤ t.ilen ∧ t.ilen ≤ Config.cap ∧ t.olen ≤ Config.cap)

/-- 60_exceptions.md section 1: which errors each command can raise. -/
def Obligations.EachCommandRaisesItsOwnErrors : Prop :=
  ∀ (i : Instr) (s t : State), exec i s = .next t → s.err = false → t.err = true → s.allocMayFail = false →
    s.ilen ≤ Config.cap →
    match i with
    | .clear | .peek | .atend | .xfer => False
    | .iappend | .oappend => errorIs t 3#4 0#4
    | .consume => errorIs t 2#4 3#4
    | .expand => errorIs t 2#4 2#4 ∨ errorIs t 3#4 0#4
    | .venc => errorIs t 1#4 1#4 ∨ errorIs t 3#4 0#4
    | .vdec => errorIs t 2#4 1#4 ∨ errorIs t 2#4 3#4
    | .deflate => errorIs t 1#4 2#4
    | .inflate => errorIs t 1#4 2#4 ∨ errorIs t 2#4 1#4 ∨ errorIs t 2#4 2#4 ∨ errorIs t 2#4 3#4 ∨ errorIs t 3#4 0#4

/-- 60_exceptions.md section 5: no allocation fails where `ALLOC_MAY_FAIL` is false; where it is true, a kept append
below the ceiling may raise ALLOC_FAILED, by a draw (log 1, log 8), instead of storing, and IAPPEND and OAPPEND then
end with ECODE 5 and CAUSE 0, as every command that appends may and no other does. -/
def Obligations.AllocationFailsOnlyByDraw : Prop :=
  (∀ (i : Instr) (s t : State), exec i s = .next t → s.allocMayFail = false → s.err = false → t.ecode ≠ 5#4 ∨ t.err = false) ∧
  (∀ (b : Buffer) (c : Byte) (s : State), s.allocMayFail = true → keep c = true → lengthOf b s < Config.cap →
    ∃ t, if Config.allocFails s.draws = true then
        append b c s = .raised .allocFailed t ∧ cellsOf b t = cellsOf b s ∧ lengthOf b t = lengthOf b s
      else append b c s = .done t ∧ textOf b t = textOf b s ++ [c]) ∧
  (∀ s : State, s.err = false → s.allocMayFail = true → keep (s.value.setWidth 8) = true → s.ilen < Config.cap →
    ∃ t, exec .iappend s = .next t ∧ idleEngine t ∧ sameOperands s t ∧ sameOutput s t ∧ sameOutside s t ∧
      t.icur = s.icur ∧
      if Config.allocFails s.draws = true then errorIs t 5#4 0#4
      else sameError s t ∧ textOf .ibuf t = textOf .ibuf s ++ [s.value.setWidth 8] ∧ t.ilen = s.ilen + 1) ∧
  (∀ s : State, s.err = false → s.allocMayFail = true → keep (s.value.setWidth 8) = true → s.olen < Config.cap →
    ∃ t, exec .oappend s = .next t ∧ idleEngine t ∧ sameOperands s t ∧ sameInput s t ∧ sameOutside s t ∧
      if Config.allocFails s.draws = true then errorIs t 5#4 0#4
      else sameError s t ∧ textOf .obuf t = textOf .obuf s ++ [s.value.setWidth 8] ∧ t.olen = s.olen + 1) ∧
  (∀ (i : Instr) (s t : State), exec i s = .next t → s.err = false → t.err = true →
    t.ecode ≠ 5#4 ∨ t.cause = 0#4 ∧ (i = .iappend ∨ i = .oappend ∨ i = .venc ∨ i = .expand ∨ i = .deflate ∨ i = .inflate))

/-! Frames and invariants. -/

/-- 30_encoding.md section 4 (the write sets): whatever happens, a command changes no element outside its write set,
no parameter and nothing of the host's. -/
def Obligations.CommandsKeepToTheirWriteSets : Prop :=
  ∀ (i : Instr) (s t : State), exec i s = .next t →
    t.dist = s.dist ∧ t.len = s.len ∧ sameOutside s t ∧ idleEngine t ∧
    (Element.value ∉ writeSet i → t.value = s.value) ∧ (Element.ibuf ∉ writeSet i → t.ibuf = s.ibuf) ∧
    (Element.ilen ∉ writeSet i → t.ilen = s.ilen) ∧ (Element.icur ∉ writeSet i → t.icur = s.icur) ∧
    (Element.obuf ∉ writeSet i → t.obuf = s.obuf) ∧ (Element.olen ∉ writeSet i → t.olen = s.olen) ∧
    (i ≠ .clear → t.err = false → sameError s t)

/-- 42_buffer.md section 1 and 30_encoding.md section 4: a command that ends without an error stores only into the
cells its buffer grew by; XFER only into the cells of the text it moved. -/
def Obligations.SuccessfulCommandsStoreOnlyNewCells : Prop :=
  ∀ (i : Instr) (s t : State), exec i s = .next t → t.err = false →
    (match i with
     | .xfer => sameCellsOutside s.ibuf t.ibuf 0 s.olen ∧ t.obuf = s.obuf
     | .clear => t.ibuf = s.ibuf ∧ t.obuf = s.obuf
     | .iappend | .oappend | .peek | .consume | .atend | .expand | .venc | .vdec | .deflate | .inflate =>
       sameCellsOutside s.ibuf t.ibuf s.ilen t.ilen ∧ sameCellsOutside s.obuf t.obuf s.olen t.olen)

/-- 42_buffer.md section 7: but for CLEAR and XFER, a command that ends without an error moves neither the cursor
nor a length back. -/
def Obligations.CursorAndLengthsOnlyAdvance : Prop :=
  ∀ (i : Instr) (s t : State), exec i s = .next t → t.err = false → i ≠ .clear → i ≠ .xfer → s.icur ≤ s.ilen →
    s.icur ≤ t.icur ∧ s.ilen ≤ t.ilen ∧ s.olen ≤ t.olen

/-- 10_state.md R22 and R23: `DIST` and `LEN` read back all bits written, no command changes them, and they reset to
0. -/
def Obligations.DistAndLenChangeOnlyByHostWrites : Prop :=
  (∀ (i : Instr) (s t : State), exec i s = .next t → t.dist = s.dist ∧ t.len = s.len) ∧
  (∀ (s : State) (a : Nat) (v : Word) (rest : List HostEvent), s.busy = false → admitted s a →
    (hostNext s (.access a (.write 0x000000C#26 4 v)) rest →
      ∃ t, step s = .next t ∧ t.dist = v ∧ t.len = s.len) ∧
    (hostNext s (.access a (.write 0x0000010#26 4 v)) rest →
      ∃ t, step s = .next t ∧ t.len = v ∧ t.dist = s.dist)) ∧
  (∀ (s : State) (a : Nat) (rest : List HostEvent), admitted s a →
    (hostNext s (.access a (.read 0x000000C#26 4)) rest →
      ∃ t, step s = .next t ∧ t.replies = .word s.dist :: s.replies ∧ t.dist = s.dist) ∧
    (hostNext s (.access a (.read 0x0000010#26 4)) rest →
      ∃ t, step s = .next t ∧ t.replies = .word s.len :: s.replies ∧ t.len = s.len)) ∧
  State.reset.dist = 0#32 ∧ State.reset.len = 0#32

/-- 10_state.md sections 3 and 4: the invariant of the block holds at reset. -/
def Obligations.InvariantHoldsAtReset : Prop := BlockInv State.reset

/-- 10_state.md sections 3 and 4: every step keeps the invariant of the block, in every state that meets it. -/
def Obligations.EveryStepKeepsTheInvariant : Prop :=
  ∀ s t : State, BlockInv s → step s = .next t → BlockInv t

/-! The host bus. -/

/-- 10_state.md section 3: what a read of STATUS returns while idle, field by field, the reserved bits 0. -/
def Obligations.StatusReadComposesItsFields : Prop :=
  ∀ (s : State) (a : Nat) (rest : List HostEvent), s.busy = false → admitted s a →
    hostNext s (.access a (.read 0x0000004#26 4)) rest →
    ∃ t v, step s = .next t ∧ t.replies = .word v :: s.replies ∧
      v.toNat = s.cause.toNat * 256 + s.ecode.toNat * 16 + (if s.err then 2 else 0) ∧
      sameError s t ∧ sameOperands s t ∧ sameInput s t ∧ sameOutput s t ∧ t.busy = false

/-- 20_memory.md sections 1 and 2: what the other register reads return while idle; a read changes nothing. -/
def Obligations.RegisterReadsReturnTheRegisters : Prop :=
  ∀ (s : State) (a : Nat) (addr : Addr) (rest : List HostEvent), s.busy = false → admitted s a →
    addr.toNat < 0x40 → addr.toNat % 4 = 0 → addr.toNat ≠ 4 → hostNext s (.access a (.read addr 4)) rest →
    ∃ t v, step s = .next t ∧ t.replies = .word v :: s.replies ∧
      (if addr.toNat = 0x08 then v = s.value
       else if addr.toNat = 0x0C then v = s.dist
       else if addr.toNat = 0x10 then v = s.len
       else if addr.toNat = 0x14 then v.toNat = s.ilen % 33554432
       else if addr.toNat = 0x18 then v.toNat = s.icur % 33554432
       else if addr.toNat = 0x1C then v.toNat = s.olen % 33554432
       else v = 0#32) ∧
      sameError s t ∧ sameOperands s t ∧ sameInput s t ∧ sameOutput s t ∧ t.busy = false ∧ t.cmd = s.cmd ∧
      t.host = rest

/-- 20_memory.md R52 and R53: a window read gives the cell below the length and 0x00 beyond it, and has no side
effect. -/
def Obligations.WindowReadsGiveTheCells : Prop :=
  ∀ (s : State) (a k : Nat) (rest : List HostEvent), s.busy = false → admitted s a → k < 16777216 →
    (hostNext s (.access a (.read (BitVec.ofNat 26 (0x1000000 + k)) 1)) rest →
      ∃ t, step s = .next t ∧
        t.replies = .byte (if k < s.ilen then s.ibuf.read k else 0x00#8) :: s.replies ∧
        sameError s t ∧ sameOperands s t ∧ sameInput s t ∧ sameOutput s t ∧ t.busy = false) ∧
    (hostNext s (.access a (.read (BitVec.ofNat 26 (0x2000000 + k)) 1)) rest →
      ∃ t, step s = .next t ∧
        t.replies = .byte (if k < s.olen then s.obuf.read k else 0x00#8) :: s.replies ∧
        sameError s t ∧ sameOperands s t ∧ sameInput s t ∧ sameOutput s t ∧ t.busy = false)

/-- 20_memory.md section 1: the accesses that get a bus error are exactly these, and such an access stops as a fault. -/
def Obligations.BusErrorsAreExactlyTheIllegalAccesses : Prop :=
  ∀ (s : State) (a : Nat) (op : BusOp) (rest : List HostEvent), admitted s a → hostNext s (.access a op) rest →
    match op with
    | .read addr w =>
      if (addr.toNat < 0x40 ∧ w = 4 ∧ addr.toNat % 4 = 0) ∨
          (0x1000000 ≤ addr.toNat ∧ addr.toNat < 0x3000000 ∧ w = 1)
      then ∃ t, step s = .next t else ∃ e, step s = .fault (.busError e)
    | .write addr w _ =>
      if addr.toNat < 0x40 ∧ w = 4 ∧ addr.toNat % 4 = 0
      then ∃ t, step s = .next t else ∃ e, step s = .fault (.busError e)

/-- 10_state.md R25: a `CMD` write while idle sets `BUSY` and hands the word to the engine; `CMD` reads 0. -/
def Obligations.CmdWriteStartsACommand : Prop :=
  ∀ (s : State) (a : Nat) (w : Word) (rest : List HostEvent), admitted s a →
    (hostNext s (.access a (.write 0x0000000#26 4 w)) rest → s.busy = false →
      ∃ t, step s = .next t ∧ t.busy = true ∧ t.cmd = w ∧ t.host = rest ∧ sameError s t ∧ sameOperands s t ∧
        sameInput s t ∧ sameOutput s t) ∧
    (hostNext s (.access a (.write 0x0000000#26 4 w)) rest → s.busy = true →
      ∃ t, step s = .next t ∧ t.busy = true ∧ t.cmd = s.cmd ∧ sameError s t ∧ sameOperands s t ∧
        sameInput s t ∧ sameOutput s t) ∧
    (hostNext s (.access a (.read 0x0000000#26 4)) rest →
      ∃ t, step s = .next t ∧ t.replies = .word 0#32 :: s.replies)

/-- 20_memory.md R56: writes to the read-only registers and the reserved offsets are ignored, reads of the reserved
offsets return 0, and `VALUE`, `DIST`, `LEN` keep every bit written. -/
def Obligations.RegisterWritesIdle : Prop :=
  ∀ (s : State) (a : Nat) (addr : Addr) (v : Word) (rest : List HostEvent), s.busy = false → admitted s a →
    addr.toNat < 0x40 → addr.toNat % 4 = 0 →
    (hostNext s (.access a (.write addr 4 v)) rest → addr.toNat ≠ 0 →
      ∃ t, step s = .next t ∧ t.value = (if addr.toNat = 0x08 then v else s.value) ∧
        t.dist = (if addr.toNat = 0x0C then v else s.dist) ∧ t.len = (if addr.toNat = 0x10 then v else s.len) ∧
        sameError s t ∧ sameInput s t ∧ sameOutput s t ∧ t.busy = false ∧ t.cmd = s.cmd ∧ t.replies = s.replies) ∧
    (hostNext s (.access a (.read addr 4)) rest → 0x20 ≤ addr.toNat →
      ∃ t, step s = .next t ∧ t.replies = .word 0#32 :: s.replies)

/-- 20_memory.md R62: while busy a write to any register is dropped. -/
def Obligations.WritesWhileBusyAreDropped : Prop :=
  ∀ (s : State) (a : Nat) (addr : Addr) (v : Word) (rest : List HostEvent), s.busy = true → admitted s a →
    addr.toNat < 0x40 → addr.toNat % 4 = 0 → hostNext s (.access a (.write addr 4 v)) rest →
    ∃ t, step s = .next t ∧ t.busy = true ∧ t.cmd = s.cmd ∧ sameError s t ∧ sameOperands s t ∧ sameInput s t ∧
      sameOutput s t ∧ t.replies = s.replies ∧ t.host = rest ∧ t.draws = s.draws

/-- 20_memory.md sections 1, 2 and 4: while busy a read of STATUS returns `BUSY` = 1, reads of `DIST` and `LEN` the
value last written, reads of `CMD` and the reserved offsets 0, a window read any byte (log 1, log 10), and no read of
a register or a window changes the block. -/
def Obligations.ReadsWhileBusy : Prop :=
  (∀ (s : State) (a : Nat) (addr : Addr) (rest : List HostEvent), s.busy = true → admitted s a →
    addr.toNat < 0x40 → addr.toNat % 4 = 0 → hostNext s (.access a (.read addr 4)) rest →
    ∃ t v, step s = .next t ∧ t.replies = .word v :: s.replies ∧
      (addr.toNat = 0x04 → v.getLsbD 0 = true) ∧ (addr.toNat = 0x0C → v = s.dist) ∧ (addr.toNat = 0x10 → v = s.len) ∧
      (addr.toNat = 0x00 ∨ 0x20 ≤ addr.toNat → v = 0#32) ∧
      t.busy = true ∧ t.cmd = s.cmd ∧ sameError s t ∧ sameOperands s t ∧ sameInput s t ∧ sameOutput s t) ∧
  (∀ (s : State) (a : Nat) (addr : Addr) (rest : List HostEvent), s.busy = true → admitted s a →
    0x1000000 ≤ addr.toNat → addr.toNat < 0x3000000 → hostNext s (.access a (.read addr 1)) rest →
    ∃ t b, step s = .next t ∧ t.replies = .byte b :: s.replies ∧
      t.busy = true ∧ t.cmd = s.cmd ∧ sameError s t ∧ sameOperands s t ∧ sameInput s t ∧ sameOutput s t)

/-- 30_encoding.md section 5: `poll` reads STATUS again while its bit 0 is 1 and is done once it is 0. -/
def Obligations.PollRepeatsUntilIdle : Prop :=
  ∀ (s : State) (a : Nat) (rest : List HostEvent), admitted s a → hostNext s (.poll a) rest →
    ∃ t v, step s = .next t ∧ t.replies = .word v :: s.replies ∧ v.getLsbD 0 = s.busy ∧
      t.host = (if s.busy then .poll a :: rest else rest) ∧ t.busy = s.busy ∧ t.cmd = s.cmd ∧
      t.wait = s.wait - 1 ∧ sameError s t ∧ sameOperands s t ∧ sameInput s t ∧ sameOutput s t

/-- 20_memory.md section 6: an access of a second host agent, while another is served, is refused (log 7: how agents
are told apart is the model's choice), also one whose address would get a bus error (log 19: the model's order). -/
def Obligations.InterleavedAgentsAreRefused : Prop :=
  ∀ (s : State) (a b : Nat) (op : BusOp) (rest : List HostEvent), s.agent = some a → b ≠ a →
    hostNext s (.access b op) rest → step s = .refused .interleavedStreams
end

