-- ==== Sys2Proof/Laws/Memory.lean ====
section
/-! SUPPORT. What the operations over a buffer's cells do, and that each keeps the canonical form. -/

namespace Sys2Proof.Machine

@[simp] theorem Memory.read_nil (a : Nat) : Memory.read [] a = 0#8 := rfl

theorem Memory.read_cons (a' : Nat) (b : Byte) (m : Memory) (a : Nat) :
    Memory.read ((a', b) :: m) a = if a = a' then b else Memory.read m a := rfl

/-- A write leaves every other cell alone. -/
theorem Memory.read_write_ne (m : Memory) (a x : Nat) (b : Byte) (h : x ≠ a) :
    (Memory.write m a b).read x = Memory.read m x := by
  induction m with
  | nil => simp only [Memory.write]; split <;> simp [Memory.read_cons, h]
  | cons p m ih =>
    obtain ⟨a', b'⟩ := p
    simp only [Memory.write]
    split
    · split <;> simp [Memory.read_cons, h]
    · split
      · subst a'; split <;> simp [Memory.read_cons, h]
      · simp [Memory.read_cons, ih]

/-- Every listed cell number is above `lo`. -/
theorem Memory.rising_weaken (m : Memory) (lo lo' : Nat) (hle : lo' ≤ lo)
    (h : Memory.rising (some lo) m = true) : Memory.rising (some lo') m = true := by
  cases m with
  | nil => rfl
  | cons p m =>
    simp only [Memory.rising, Bool.and_eq_true, decide_eq_true_eq] at h ⊢
    exact ⟨by omega, h.2⟩

theorem Memory.read_of_rising (m : Memory) (lo a : Nat) (ha : a ≤ lo)
    (h : Memory.rising (some lo) m = true) : m.read a = 0#8 := by
  induction m with
  | nil => rfl
  | cons p m ih =>
    obtain ⟨a', b'⟩ := p
    simp only [Memory.rising, Bool.and_eq_true, decide_eq_true_eq] at h
    rw [Memory.read_cons, if_neg (by omega)]
    exact ih (Memory.rising_weaken m a' lo (by omega) h.2)

theorem Memory.read_write_eq_of_rising (m : Memory) (lo : Option Nat) (a : Nat) (b : Byte)
    (h : Memory.rising lo m = true) : (Memory.write m a b).read a = b := by
  induction m generalizing lo with
  | nil => simp only [Memory.write]; split <;> simp_all [Memory.read_cons]
  | cons p m ih =>
    obtain ⟨a', b'⟩ := p
    simp only [Memory.rising, Bool.and_eq_true] at h
    simp only [Memory.write]
    split
    · rename_i hlt
      split
      · rename_i hb
        rw [Memory.read_cons, if_neg (by omega), hb]
        exact Memory.read_of_rising m a' a (by omega) h.2
      · simp [Memory.read_cons]
    · split
      · rename_i heq
        subst heq
        split
        · rename_i hb; rw [hb]; exact Memory.read_of_rising m a a (Nat.le_refl a) h.2
        · simp [Memory.read_cons]
      · rename_i hne
        rw [Memory.read_cons, if_neg hne]
        exact ih (some a') h.2

/-- A read after a write to the same cell gives the character written. -/
theorem Memory.read_write_eq (m : Memory) (a : Nat) (b : Byte) (h : m.wf = true) :
    (m.write a b).read a = b := by
  simp only [Memory.wf, Bool.and_eq_true] at h
  exact Memory.read_write_eq_of_rising m none a b h.1

/-- The same for a character an unlisted cell does not read as, in any list. -/
theorem Memory.read_write_eq_of_ne (m : Memory) (a : Nat) (b : Byte) (hb : b ≠ 0#8) :
    (Memory.write m a b).read a = b := by
  induction m with
  | nil => simp [Memory.write, hb, Memory.read_cons]
  | cons p m ih =>
    obtain ⟨a', b'⟩ := p
    simp only [Memory.write, if_neg hb]
    split
    · simp [Memory.read_cons]
    · split
      · simp [Memory.read_cons]
      · rename_i hne; rw [Memory.read_cons, if_neg hne]; exact ih

theorem Memory.rising_write (m : Memory) (lo : Option Nat) (a : Nat) (b : Byte)
    (hlo : ∀ l, lo = some l → l < a) (h : Memory.rising lo m = true) :
    Memory.rising lo (Memory.write m a b) = true := by
  induction m generalizing lo with
  | nil =>
    simp only [Memory.write]
    split
    · rfl
    · cases lo with
      | none => rfl
      | some l => simp [Memory.rising, hlo l rfl]
  | cons p m ih =>
    obtain ⟨a', b'⟩ := p
    have hh := h
    simp only [Memory.rising, Bool.and_eq_true] at h
    simp only [Memory.write]
    split
    · rename_i hlt
      split
      · exact hh
      · cases lo with
        | none => simp [Memory.rising, hlt, h.2]
        | some l => simp [Memory.rising, hlo l rfl, hlt, h.2]
    · split
      · rename_i heq
        subst heq
        split
        · cases m with
          | nil => rfl
          | cons q m =>
            obtain ⟨c, d⟩ := q
            have h2 := h.2
            simp only [Memory.rising, Bool.and_eq_true, decide_eq_true_eq] at h2 ⊢
            cases lo with
            | none => exact ⟨rfl, h2.2⟩
            | some l => exact ⟨by have := hlo l rfl; simp; omega, h2.2⟩
        · cases lo with
          | none => simp [Memory.rising, h.2]
          | some l => simp [Memory.rising, hlo l rfl, h.2]
      · rename_i hlt hne
        simp only [Memory.rising, Bool.and_eq_true]
        exact ⟨h.1, ih (some a') (by rintro l ⟨⟩; omega) h.2⟩

theorem Memory.noneZero_write (m : Memory) (a : Nat) (b : Byte) (h : Memory.noneZero m = true) :
    Memory.noneZero (Memory.write m a b) = true := by
  induction m with
  | nil => simp only [Memory.write]; split <;> simp_all [Memory.noneZero]
  | cons p m ih =>
    obtain ⟨a', b'⟩ := p
    simp only [Memory.noneZero, Bool.and_eq_true, decide_eq_true_eq] at h
    simp only [Memory.write]
    repeat' split
    all_goals simp_all [Memory.noneZero]

theorem Memory.bounded_write (m : Memory) (a : Nat) (b : Byte) (ha : a < Config.cap)
    (h : Memory.bounded m = true) : Memory.bounded (Memory.write m a b) = true := by
  induction m with
  | nil => simp only [Memory.write]; split <;> simp_all [Memory.bounded]
  | cons p m ih =>
    obtain ⟨a', b'⟩ := p
    simp only [Memory.bounded, Bool.and_eq_true, decide_eq_true_eq] at h
    simp only [Memory.write]
    repeat' split
    all_goals simp_all [Memory.bounded]

/-- A write keeps the canonical form. -/
theorem Memory.wf_write (m : Memory) (a : Nat) (b : Byte) (h : m.wf = true) : (m.write a b).wf = true := by
  simp only [Memory.wf, Bool.and_eq_true] at h ⊢
  exact ⟨Memory.rising_write m none a b (by simp) h.1, Memory.noneZero_write m a b h.2⟩

@[simp] theorem Memory.wf_nil : Memory.wf [] = true := rfl

@[simp] theorem Memory.bounded_nil : Memory.bounded [] = true := rfl

/-- Storing a text keeps the canonical form. -/
theorem Memory.wf_storeText (m : Memory) (a : Nat) (t : List Byte) (h : m.wf = true) :
    (m.storeText a t).wf = true := by
  induction t generalizing m a with
  | nil => exact h
  | cons c t ih => exact ih (m.write a c) (a + 1) (Memory.wf_write m a c h)

theorem Memory.bounded_storeText (m : Memory) (a : Nat) (t : List Byte) (ha : a + t.length ≤ Config.cap)
    (h : m.bounded = true) : (m.storeText a t).bounded = true := by
  induction t generalizing m a with
  | nil => exact h
  | cons c t ih =>
    simp only [List.length_cons] at ha
    exact ih (m.write a c) (a + 1) (by omega) (Memory.bounded_write m a c (by omega) h)

/-- Storing a text leaves the cells outside it alone. -/
theorem Memory.read_storeText_outside (m : Memory) (a x : Nat) (t : List Byte) (h : x < a ∨ a + t.length ≤ x) :
    (m.storeText a t).read x = m.read x := by
  induction t generalizing m a with
  | nil => rfl
  | cons c t ih =>
    simp only [List.length_cons] at h
    rw [Memory.storeText, ih (m.write a c) (a + 1) (by omega), Memory.read_write_ne m a x c (by omega)]

/-- The cells of a stored text hold it. -/
theorem Memory.read_storeText_inside (m : Memory) (a k : Nat) (t : List Byte) (hm : m.wf = true)
    (h : k < t.length) : (m.storeText a t).read (a + k) = t[k] := by
  induction t generalizing m a k with
  | nil => simp at h
  | cons c t ih =>
    cases k with
    | zero =>
      rw [Memory.storeText, Memory.read_storeText_outside _ _ _ _ (Or.inl (by omega)),
        Nat.add_zero, Memory.read_write_eq m a c hm]
      rfl
    | succ k =>
      simp only [List.length_cons] at h
      have := ih (m.write a c) (a + 1) k (Memory.wf_write m a c hm) (by omega)
      rw [Memory.storeText, show a + (k + 1) = a + 1 + k by omega, this]
      rfl

@[simp] theorem Memory.slice_zero (m : Memory) (a : Nat) : m.slice a 0 = [] := rfl

@[simp] theorem Memory.slice_length (m : Memory) (a n : Nat) : (m.slice a n).length = n := by
  induction n generalizing a with
  | zero => rfl
  | succ n ih => simp [Memory.slice, ih]

/-- The characters of a slice are the cells' characters. -/
theorem Memory.slice_getElem (m : Memory) (a n k : Nat) (h : k < (m.slice a n).length) :
    (m.slice a n)[k] = m.read (a + k) := by
  induction n generalizing a k with
  | zero => simp at h
  | succ n ih =>
    cases k with
    | zero => rfl
    | succ k =>
      simp only [Memory.slice_length] at h
      have := ih (a + 1) k (by simpa using by omega)
      simp only [Memory.slice, List.getElem_cons_succ, this]
      congr 1; omega

/-- A slice one cell longer. -/
theorem Memory.slice_succ (m : Memory) (a n : Nat) : m.slice a (n + 1) = m.slice a n ++ [m.read (a + n)] := by
  induction n generalizing a with
  | zero => simp [Memory.slice]
  | succ n ih =>
    rw [Memory.slice, ih (a + 1), Memory.slice, List.cons_append, show a + 1 + n = a + (n + 1) by omega]

/-- Two memories that agree on a slice's cells have the same slice. -/
theorem Memory.slice_congr (m m' : Memory) (a n : Nat) (h : ∀ x, a ≤ x → x < a + n → m.read x = m'.read x) :
    m.slice a n = m'.slice a n := by
  induction n generalizing a with
  | zero => rfl
  | succ n ih =>
    rw [Memory.slice, Memory.slice, h a (Nat.le_refl a) (by omega), ih (a + 1) (fun x h1 h2 => h x (by omega) (by omega))]

/-- A slice of a stored text is the text. -/
theorem Memory.slice_storeText (m : Memory) (a : Nat) (t : List Byte) (hm : m.wf = true) :
    (m.storeText a t).slice a t.length = t := by
  apply List.ext_getElem
  · simp
  · intro k h1 h2
    rw [Memory.slice_getElem, Memory.read_storeText_inside m a k t hm h2]

/-- A character of a slice stands in one of its cells. -/
theorem Memory.mem_slice (m : Memory) (a n : Nat) (c : Byte) :
    c ∈ m.slice a n ↔ ∃ k, k < n ∧ m.read (a + k) = c := by
  constructor
  · intro h
    obtain ⟨k, hk, rfl⟩ := List.getElem_of_mem h
    exact ⟨k, by simpa using hk, (Memory.slice_getElem m a n k hk).symm⟩
  · rintro ⟨k, hk, rfl⟩
    have h : k < (m.slice a n).length := by simpa using hk
    rw [← Memory.slice_getElem m a n k h]
    exact List.getElem_mem h

end Sys2Proof.Machine
end

