-- ==== Sys2Proof/Laws/State.lean ====
section
/-! SUPPORT. One lemma per field per named update of the state, so that no proof unfolds a record update. -/

namespace Sys2Proof.Machine

@[simp] theorem complete_busy (s : State) : (complete s).busy = false := rfl
@[simp] theorem complete_err (s : State) : (complete s).err = s.err := rfl
@[simp] theorem complete_ecode (s : State) : (complete s).ecode = s.ecode := rfl
@[simp] theorem complete_cause (s : State) : (complete s).cause = s.cause := rfl
@[simp] theorem complete_value (s : State) : (complete s).value = s.value := rfl
@[simp] theorem complete_dist (s : State) : (complete s).dist = s.dist := rfl
@[simp] theorem complete_len (s : State) : (complete s).len = s.len := rfl
@[simp] theorem complete_ibuf (s : State) : (complete s).ibuf = s.ibuf := rfl
@[simp] theorem complete_ilen (s : State) : (complete s).ilen = s.ilen := rfl
@[simp] theorem complete_icur (s : State) : (complete s).icur = s.icur := rfl
@[simp] theorem complete_obuf (s : State) : (complete s).obuf = s.obuf := rfl
@[simp] theorem complete_olen (s : State) : (complete s).olen = s.olen := rfl
@[simp] theorem complete_cmd (s : State) : (complete s).cmd = 0#32 := rfl
@[simp] theorem complete_wait (s : State) : (complete s).wait = 0 := rfl
@[simp] theorem complete_draws (s : State) : (complete s).draws = s.draws := rfl
@[simp] theorem complete_allocMayFail (s : State) : (complete s).allocMayFail = s.allocMayFail := rfl
@[simp] theorem complete_agent (s : State) : (complete s).agent = s.agent := rfl
@[simp] theorem complete_host (s : State) : (complete s).host = s.host := rfl
@[simp] theorem complete_replies (s : State) : (complete s).replies = s.replies := rfl

@[simp] theorem setValue_busy (v : Word) (s : State) : (setValue v s).busy = s.busy := rfl
@[simp] theorem setValue_err (v : Word) (s : State) : (setValue v s).err = s.err := rfl
@[simp] theorem setValue_ecode (v : Word) (s : State) : (setValue v s).ecode = s.ecode := rfl
@[simp] theorem setValue_cause (v : Word) (s : State) : (setValue v s).cause = s.cause := rfl
@[simp] theorem setValue_value (v : Word) (s : State) : (setValue v s).value = v := rfl
@[simp] theorem setValue_dist (v : Word) (s : State) : (setValue v s).dist = s.dist := rfl
@[simp] theorem setValue_len (v : Word) (s : State) : (setValue v s).len = s.len := rfl
@[simp] theorem setValue_ibuf (v : Word) (s : State) : (setValue v s).ibuf = s.ibuf := rfl
@[simp] theorem setValue_ilen (v : Word) (s : State) : (setValue v s).ilen = s.ilen := rfl
@[simp] theorem setValue_icur (v : Word) (s : State) : (setValue v s).icur = s.icur := rfl
@[simp] theorem setValue_obuf (v : Word) (s : State) : (setValue v s).obuf = s.obuf := rfl
@[simp] theorem setValue_olen (v : Word) (s : State) : (setValue v s).olen = s.olen := rfl
@[simp] theorem setValue_cmd (v : Word) (s : State) : (setValue v s).cmd = s.cmd := rfl
@[simp] theorem setValue_wait (v : Word) (s : State) : (setValue v s).wait = s.wait := rfl
@[simp] theorem setValue_draws (v : Word) (s : State) : (setValue v s).draws = s.draws := rfl
@[simp] theorem setValue_allocMayFail (v : Word) (s : State) : (setValue v s).allocMayFail = s.allocMayFail := rfl
@[simp] theorem setValue_agent (v : Word) (s : State) : (setValue v s).agent = s.agent := rfl
@[simp] theorem setValue_host (v : Word) (s : State) : (setValue v s).host = s.host := rfl
@[simp] theorem setValue_replies (v : Word) (s : State) : (setValue v s).replies = s.replies := rfl

@[simp] theorem setDist_busy (v : Word) (s : State) : (setDist v s).busy = s.busy := rfl
@[simp] theorem setDist_err (v : Word) (s : State) : (setDist v s).err = s.err := rfl
@[simp] theorem setDist_ecode (v : Word) (s : State) : (setDist v s).ecode = s.ecode := rfl
@[simp] theorem setDist_cause (v : Word) (s : State) : (setDist v s).cause = s.cause := rfl
@[simp] theorem setDist_value (v : Word) (s : State) : (setDist v s).value = s.value := rfl
@[simp] theorem setDist_dist (v : Word) (s : State) : (setDist v s).dist = v := rfl
@[simp] theorem setDist_len (v : Word) (s : State) : (setDist v s).len = s.len := rfl
@[simp] theorem setDist_ibuf (v : Word) (s : State) : (setDist v s).ibuf = s.ibuf := rfl
@[simp] theorem setDist_ilen (v : Word) (s : State) : (setDist v s).ilen = s.ilen := rfl
@[simp] theorem setDist_icur (v : Word) (s : State) : (setDist v s).icur = s.icur := rfl
@[simp] theorem setDist_obuf (v : Word) (s : State) : (setDist v s).obuf = s.obuf := rfl
@[simp] theorem setDist_olen (v : Word) (s : State) : (setDist v s).olen = s.olen := rfl
@[simp] theorem setDist_cmd (v : Word) (s : State) : (setDist v s).cmd = s.cmd := rfl
@[simp] theorem setDist_wait (v : Word) (s : State) : (setDist v s).wait = s.wait := rfl
@[simp] theorem setDist_draws (v : Word) (s : State) : (setDist v s).draws = s.draws := rfl
@[simp] theorem setDist_allocMayFail (v : Word) (s : State) : (setDist v s).allocMayFail = s.allocMayFail := rfl
@[simp] theorem setDist_agent (v : Word) (s : State) : (setDist v s).agent = s.agent := rfl
@[simp] theorem setDist_host (v : Word) (s : State) : (setDist v s).host = s.host := rfl
@[simp] theorem setDist_replies (v : Word) (s : State) : (setDist v s).replies = s.replies := rfl

@[simp] theorem setLen_busy (v : Word) (s : State) : (setLen v s).busy = s.busy := rfl
@[simp] theorem setLen_err (v : Word) (s : State) : (setLen v s).err = s.err := rfl
@[simp] theorem setLen_ecode (v : Word) (s : State) : (setLen v s).ecode = s.ecode := rfl
@[simp] theorem setLen_cause (v : Word) (s : State) : (setLen v s).cause = s.cause := rfl
@[simp] theorem setLen_value (v : Word) (s : State) : (setLen v s).value = s.value := rfl
@[simp] theorem setLen_dist (v : Word) (s : State) : (setLen v s).dist = s.dist := rfl
@[simp] theorem setLen_len (v : Word) (s : State) : (setLen v s).len = v := rfl
@[simp] theorem setLen_ibuf (v : Word) (s : State) : (setLen v s).ibuf = s.ibuf := rfl
@[simp] theorem setLen_ilen (v : Word) (s : State) : (setLen v s).ilen = s.ilen := rfl
@[simp] theorem setLen_icur (v : Word) (s : State) : (setLen v s).icur = s.icur := rfl
@[simp] theorem setLen_obuf (v : Word) (s : State) : (setLen v s).obuf = s.obuf := rfl
@[simp] theorem setLen_olen (v : Word) (s : State) : (setLen v s).olen = s.olen := rfl
@[simp] theorem setLen_cmd (v : Word) (s : State) : (setLen v s).cmd = s.cmd := rfl
@[simp] theorem setLen_wait (v : Word) (s : State) : (setLen v s).wait = s.wait := rfl
@[simp] theorem setLen_draws (v : Word) (s : State) : (setLen v s).draws = s.draws := rfl
@[simp] theorem setLen_allocMayFail (v : Word) (s : State) : (setLen v s).allocMayFail = s.allocMayFail := rfl
@[simp] theorem setLen_agent (v : Word) (s : State) : (setLen v s).agent = s.agent := rfl
@[simp] theorem setLen_host (v : Word) (s : State) : (setLen v s).host = s.host := rfl
@[simp] theorem setLen_replies (v : Word) (s : State) : (setLen v s).replies = s.replies := rfl

@[simp] theorem setCursor_busy (n : Nat) (s : State) : (setCursor n s).busy = s.busy := rfl
@[simp] theorem setCursor_err (n : Nat) (s : State) : (setCursor n s).err = s.err := rfl
@[simp] theorem setCursor_ecode (n : Nat) (s : State) : (setCursor n s).ecode = s.ecode := rfl
@[simp] theorem setCursor_cause (n : Nat) (s : State) : (setCursor n s).cause = s.cause := rfl
@[simp] theorem setCursor_value (n : Nat) (s : State) : (setCursor n s).value = s.value := rfl
@[simp] theorem setCursor_dist (n : Nat) (s : State) : (setCursor n s).dist = s.dist := rfl
@[simp] theorem setCursor_len (n : Nat) (s : State) : (setCursor n s).len = s.len := rfl
@[simp] theorem setCursor_ibuf (n : Nat) (s : State) : (setCursor n s).ibuf = s.ibuf := rfl
@[simp] theorem setCursor_ilen (n : Nat) (s : State) : (setCursor n s).ilen = s.ilen := rfl
@[simp] theorem setCursor_icur (n : Nat) (s : State) : (setCursor n s).icur = n := rfl
@[simp] theorem setCursor_obuf (n : Nat) (s : State) : (setCursor n s).obuf = s.obuf := rfl
@[simp] theorem setCursor_olen (n : Nat) (s : State) : (setCursor n s).olen = s.olen := rfl
@[simp] theorem setCursor_cmd (n : Nat) (s : State) : (setCursor n s).cmd = s.cmd := rfl
@[simp] theorem setCursor_wait (n : Nat) (s : State) : (setCursor n s).wait = s.wait := rfl
@[simp] theorem setCursor_draws (n : Nat) (s : State) : (setCursor n s).draws = s.draws := rfl
@[simp] theorem setCursor_allocMayFail (n : Nat) (s : State) : (setCursor n s).allocMayFail = s.allocMayFail := rfl
@[simp] theorem setCursor_agent (n : Nat) (s : State) : (setCursor n s).agent = s.agent := rfl
@[simp] theorem setCursor_host (n : Nat) (s : State) : (setCursor n s).host = s.host := rfl
@[simp] theorem setCursor_replies (n : Nat) (s : State) : (setCursor n s).replies = s.replies := rfl

@[simp] theorem setBuffer_ibuf_busy (m : Memory) (n : Nat) (s : State) : (setBuffer .ibuf m n s).busy = s.busy := rfl
@[simp] theorem setBuffer_ibuf_err (m : Memory) (n : Nat) (s : State) : (setBuffer .ibuf m n s).err = s.err := rfl
@[simp] theorem setBuffer_ibuf_ecode (m : Memory) (n : Nat) (s : State) : (setBuffer .ibuf m n s).ecode = s.ecode := rfl
@[simp] theorem setBuffer_ibuf_cause (m : Memory) (n : Nat) (s : State) : (setBuffer .ibuf m n s).cause = s.cause := rfl
@[simp] theorem setBuffer_ibuf_value (m : Memory) (n : Nat) (s : State) : (setBuffer .ibuf m n s).value = s.value := rfl
@[simp] theorem setBuffer_ibuf_dist (m : Memory) (n : Nat) (s : State) : (setBuffer .ibuf m n s).dist = s.dist := rfl
@[simp] theorem setBuffer_ibuf_len (m : Memory) (n : Nat) (s : State) : (setBuffer .ibuf m n s).len = s.len := rfl
@[simp] theorem setBuffer_ibuf_ibuf (m : Memory) (n : Nat) (s : State) : (setBuffer .ibuf m n s).ibuf = m := rfl
@[simp] theorem setBuffer_ibuf_ilen (m : Memory) (n : Nat) (s : State) : (setBuffer .ibuf m n s).ilen = n := rfl
@[simp] theorem setBuffer_ibuf_icur (m : Memory) (n : Nat) (s : State) : (setBuffer .ibuf m n s).icur = s.icur := rfl
@[simp] theorem setBuffer_ibuf_obuf (m : Memory) (n : Nat) (s : State) : (setBuffer .ibuf m n s).obuf = s.obuf := rfl
@[simp] theorem setBuffer_ibuf_olen (m : Memory) (n : Nat) (s : State) : (setBuffer .ibuf m n s).olen = s.olen := rfl
@[simp] theorem setBuffer_ibuf_cmd (m : Memory) (n : Nat) (s : State) : (setBuffer .ibuf m n s).cmd = s.cmd := rfl
@[simp] theorem setBuffer_ibuf_wait (m : Memory) (n : Nat) (s : State) : (setBuffer .ibuf m n s).wait = s.wait := rfl
@[simp] theorem setBuffer_ibuf_draws (m : Memory) (n : Nat) (s : State) : (setBuffer .ibuf m n s).draws = s.draws := rfl
@[simp] theorem setBuffer_ibuf_allocMayFail (m : Memory) (n : Nat) (s : State) : (setBuffer .ibuf m n s).allocMayFail = s.allocMayFail := rfl
@[simp] theorem setBuffer_ibuf_agent (m : Memory) (n : Nat) (s : State) : (setBuffer .ibuf m n s).agent = s.agent := rfl
@[simp] theorem setBuffer_ibuf_host (m : Memory) (n : Nat) (s : State) : (setBuffer .ibuf m n s).host = s.host := rfl
@[simp] theorem setBuffer_ibuf_replies (m : Memory) (n : Nat) (s : State) : (setBuffer .ibuf m n s).replies = s.replies := rfl

@[simp] theorem setBuffer_obuf_busy (m : Memory) (n : Nat) (s : State) : (setBuffer .obuf m n s).busy = s.busy := rfl
@[simp] theorem setBuffer_obuf_err (m : Memory) (n : Nat) (s : State) : (setBuffer .obuf m n s).err = s.err := rfl
@[simp] theorem setBuffer_obuf_ecode (m : Memory) (n : Nat) (s : State) : (setBuffer .obuf m n s).ecode = s.ecode := rfl
@[simp] theorem setBuffer_obuf_cause (m : Memory) (n : Nat) (s : State) : (setBuffer .obuf m n s).cause = s.cause := rfl
@[simp] theorem setBuffer_obuf_value (m : Memory) (n : Nat) (s : State) : (setBuffer .obuf m n s).value = s.value := rfl
@[simp] theorem setBuffer_obuf_dist (m : Memory) (n : Nat) (s : State) : (setBuffer .obuf m n s).dist = s.dist := rfl
@[simp] theorem setBuffer_obuf_len (m : Memory) (n : Nat) (s : State) : (setBuffer .obuf m n s).len = s.len := rfl
@[simp] theorem setBuffer_obuf_ibuf (m : Memory) (n : Nat) (s : State) : (setBuffer .obuf m n s).ibuf = s.ibuf := rfl
@[simp] theorem setBuffer_obuf_ilen (m : Memory) (n : Nat) (s : State) : (setBuffer .obuf m n s).ilen = s.ilen := rfl
@[simp] theorem setBuffer_obuf_icur (m : Memory) (n : Nat) (s : State) : (setBuffer .obuf m n s).icur = s.icur := rfl
@[simp] theorem setBuffer_obuf_obuf (m : Memory) (n : Nat) (s : State) : (setBuffer .obuf m n s).obuf = m := rfl
@[simp] theorem setBuffer_obuf_olen (m : Memory) (n : Nat) (s : State) : (setBuffer .obuf m n s).olen = n := rfl
@[simp] theorem setBuffer_obuf_cmd (m : Memory) (n : Nat) (s : State) : (setBuffer .obuf m n s).cmd = s.cmd := rfl
@[simp] theorem setBuffer_obuf_wait (m : Memory) (n : Nat) (s : State) : (setBuffer .obuf m n s).wait = s.wait := rfl
@[simp] theorem setBuffer_obuf_draws (m : Memory) (n : Nat) (s : State) : (setBuffer .obuf m n s).draws = s.draws := rfl
@[simp] theorem setBuffer_obuf_allocMayFail (m : Memory) (n : Nat) (s : State) : (setBuffer .obuf m n s).allocMayFail = s.allocMayFail := rfl
@[simp] theorem setBuffer_obuf_agent (m : Memory) (n : Nat) (s : State) : (setBuffer .obuf m n s).agent = s.agent := rfl
@[simp] theorem setBuffer_obuf_host (m : Memory) (n : Nat) (s : State) : (setBuffer .obuf m n s).host = s.host := rfl
@[simp] theorem setBuffer_obuf_replies (m : Memory) (n : Nat) (s : State) : (setBuffer .obuf m n s).replies = s.replies := rfl

@[simp] theorem emptyBuffers_busy (s : State) : (emptyBuffers s).busy = s.busy := rfl
@[simp] theorem emptyBuffers_err (s : State) : (emptyBuffers s).err = s.err := rfl
@[simp] theorem emptyBuffers_ecode (s : State) : (emptyBuffers s).ecode = s.ecode := rfl
@[simp] theorem emptyBuffers_cause (s : State) : (emptyBuffers s).cause = s.cause := rfl
@[simp] theorem emptyBuffers_value (s : State) : (emptyBuffers s).value = s.value := rfl
@[simp] theorem emptyBuffers_dist (s : State) : (emptyBuffers s).dist = s.dist := rfl
@[simp] theorem emptyBuffers_len (s : State) : (emptyBuffers s).len = s.len := rfl
@[simp] theorem emptyBuffers_ibuf (s : State) : (emptyBuffers s).ibuf = s.ibuf := rfl
@[simp] theorem emptyBuffers_ilen (s : State) : (emptyBuffers s).ilen = 0 := rfl
@[simp] theorem emptyBuffers_icur (s : State) : (emptyBuffers s).icur = 0 := rfl
@[simp] theorem emptyBuffers_obuf (s : State) : (emptyBuffers s).obuf = s.obuf := rfl
@[simp] theorem emptyBuffers_olen (s : State) : (emptyBuffers s).olen = 0 := rfl
@[simp] theorem emptyBuffers_cmd (s : State) : (emptyBuffers s).cmd = s.cmd := rfl
@[simp] theorem emptyBuffers_wait (s : State) : (emptyBuffers s).wait = s.wait := rfl
@[simp] theorem emptyBuffers_draws (s : State) : (emptyBuffers s).draws = s.draws := rfl
@[simp] theorem emptyBuffers_allocMayFail (s : State) : (emptyBuffers s).allocMayFail = s.allocMayFail := rfl
@[simp] theorem emptyBuffers_agent (s : State) : (emptyBuffers s).agent = s.agent := rfl
@[simp] theorem emptyBuffers_host (s : State) : (emptyBuffers s).host = s.host := rfl
@[simp] theorem emptyBuffers_replies (s : State) : (emptyBuffers s).replies = s.replies := rfl

@[simp] theorem clearError_busy (s : State) : (clearError s).busy = s.busy := rfl
@[simp] theorem clearError_err (s : State) : (clearError s).err = false := rfl
@[simp] theorem clearError_ecode (s : State) : (clearError s).ecode = 0#4 := rfl
@[simp] theorem clearError_cause (s : State) : (clearError s).cause = 0#4 := rfl
@[simp] theorem clearError_value (s : State) : (clearError s).value = s.value := rfl
@[simp] theorem clearError_dist (s : State) : (clearError s).dist = s.dist := rfl
@[simp] theorem clearError_len (s : State) : (clearError s).len = s.len := rfl
@[simp] theorem clearError_ibuf (s : State) : (clearError s).ibuf = s.ibuf := rfl
@[simp] theorem clearError_ilen (s : State) : (clearError s).ilen = s.ilen := rfl
@[simp] theorem clearError_icur (s : State) : (clearError s).icur = s.icur := rfl
@[simp] theorem clearError_obuf (s : State) : (clearError s).obuf = s.obuf := rfl
@[simp] theorem clearError_olen (s : State) : (clearError s).olen = s.olen := rfl
@[simp] theorem clearError_cmd (s : State) : (clearError s).cmd = s.cmd := rfl
@[simp] theorem clearError_wait (s : State) : (clearError s).wait = s.wait := rfl
@[simp] theorem clearError_draws (s : State) : (clearError s).draws = s.draws := rfl
@[simp] theorem clearError_allocMayFail (s : State) : (clearError s).allocMayFail = s.allocMayFail := rfl
@[simp] theorem clearError_agent (s : State) : (clearError s).agent = s.agent := rfl
@[simp] theorem clearError_host (s : State) : (clearError s).host = s.host := rfl
@[simp] theorem clearError_replies (s : State) : (clearError s).replies = s.replies := rfl

@[simp] theorem recordError_busy (e : Err) (s : State) : (recordError e s).busy = s.busy := rfl
@[simp] theorem recordError_err (e : Err) (s : State) : (recordError e s).err = true := rfl
@[simp] theorem recordError_ecode (e : Err) (s : State) : (recordError e s).ecode = errCode e := rfl
@[simp] theorem recordError_cause (e : Err) (s : State) : (recordError e s).cause = errCause e := rfl
@[simp] theorem recordError_value (e : Err) (s : State) : (recordError e s).value = s.value := rfl
@[simp] theorem recordError_dist (e : Err) (s : State) : (recordError e s).dist = s.dist := rfl
@[simp] theorem recordError_len (e : Err) (s : State) : (recordError e s).len = s.len := rfl
@[simp] theorem recordError_ibuf (e : Err) (s : State) : (recordError e s).ibuf = s.ibuf := rfl
@[simp] theorem recordError_ilen (e : Err) (s : State) : (recordError e s).ilen = s.ilen := rfl
@[simp] theorem recordError_icur (e : Err) (s : State) : (recordError e s).icur = s.icur := rfl
@[simp] theorem recordError_obuf (e : Err) (s : State) : (recordError e s).obuf = s.obuf := rfl
@[simp] theorem recordError_olen (e : Err) (s : State) : (recordError e s).olen = s.olen := rfl
@[simp] theorem recordError_cmd (e : Err) (s : State) : (recordError e s).cmd = s.cmd := rfl
@[simp] theorem recordError_wait (e : Err) (s : State) : (recordError e s).wait = s.wait := rfl
@[simp] theorem recordError_draws (e : Err) (s : State) : (recordError e s).draws = s.draws := rfl
@[simp] theorem recordError_allocMayFail (e : Err) (s : State) : (recordError e s).allocMayFail = s.allocMayFail := rfl
@[simp] theorem recordError_agent (e : Err) (s : State) : (recordError e s).agent = s.agent := rfl
@[simp] theorem recordError_host (e : Err) (s : State) : (recordError e s).host = s.host := rfl
@[simp] theorem recordError_replies (e : Err) (s : State) : (recordError e s).replies = s.replies := rfl

@[simp] theorem advanceDraws_busy (n : Nat) (s : State) : (advanceDraws n s).busy = s.busy := rfl
@[simp] theorem advanceDraws_err (n : Nat) (s : State) : (advanceDraws n s).err = s.err := rfl
@[simp] theorem advanceDraws_ecode (n : Nat) (s : State) : (advanceDraws n s).ecode = s.ecode := rfl
@[simp] theorem advanceDraws_cause (n : Nat) (s : State) : (advanceDraws n s).cause = s.cause := rfl
@[simp] theorem advanceDraws_value (n : Nat) (s : State) : (advanceDraws n s).value = s.value := rfl
@[simp] theorem advanceDraws_dist (n : Nat) (s : State) : (advanceDraws n s).dist = s.dist := rfl
@[simp] theorem advanceDraws_len (n : Nat) (s : State) : (advanceDraws n s).len = s.len := rfl
@[simp] theorem advanceDraws_ibuf (n : Nat) (s : State) : (advanceDraws n s).ibuf = s.ibuf := rfl
@[simp] theorem advanceDraws_ilen (n : Nat) (s : State) : (advanceDraws n s).ilen = s.ilen := rfl
@[simp] theorem advanceDraws_icur (n : Nat) (s : State) : (advanceDraws n s).icur = s.icur := rfl
@[simp] theorem advanceDraws_obuf (n : Nat) (s : State) : (advanceDraws n s).obuf = s.obuf := rfl
@[simp] theorem advanceDraws_olen (n : Nat) (s : State) : (advanceDraws n s).olen = s.olen := rfl
@[simp] theorem advanceDraws_cmd (n : Nat) (s : State) : (advanceDraws n s).cmd = s.cmd := rfl
@[simp] theorem advanceDraws_wait (n : Nat) (s : State) : (advanceDraws n s).wait = s.wait := rfl
@[simp] theorem advanceDraws_draws (n : Nat) (s : State) : (advanceDraws n s).draws = s.draws + n := rfl
@[simp] theorem advanceDraws_allocMayFail (n : Nat) (s : State) : (advanceDraws n s).allocMayFail = s.allocMayFail := rfl
@[simp] theorem advanceDraws_agent (n : Nat) (s : State) : (advanceDraws n s).agent = s.agent := rfl
@[simp] theorem advanceDraws_host (n : Nat) (s : State) : (advanceDraws n s).host = s.host := rfl
@[simp] theorem advanceDraws_replies (n : Nat) (s : State) : (advanceDraws n s).replies = s.replies := rfl

@[simp] theorem unspecify_busy (ws : List Element) (s : State) : (unspecify ws s).busy = s.busy := rfl
@[simp] theorem unspecify_err (ws : List Element) (s : State) : (unspecify ws s).err = s.err := rfl
@[simp] theorem unspecify_ecode (ws : List Element) (s : State) : (unspecify ws s).ecode = s.ecode := rfl
@[simp] theorem unspecify_cause (ws : List Element) (s : State) : (unspecify ws s).cause = s.cause := rfl
@[simp] theorem unspecify_value (ws : List Element) (s : State) : (unspecify ws s).value = (if inSet .value ws then Config.freeWord s.draws else s.value) := rfl
@[simp] theorem unspecify_dist (ws : List Element) (s : State) : (unspecify ws s).dist = s.dist := rfl
@[simp] theorem unspecify_len (ws : List Element) (s : State) : (unspecify ws s).len = s.len := rfl
@[simp] theorem unspecify_ibuf (ws : List Element) (s : State) : (unspecify ws s).ibuf = (if inSet .ibuf ws then freeCells (s.draws + 1) (unspecIlen ws s) else s.ibuf) := rfl
@[simp] theorem unspecify_ilen (ws : List Element) (s : State) : (unspecify ws s).ilen = unspecIlen ws s := rfl
@[simp] theorem unspecify_icur (ws : List Element) (s : State) : (unspecify ws s).icur = unspecIcur ws s := rfl
@[simp] theorem unspecify_obuf (ws : List Element) (s : State) : (unspecify ws s).obuf = (if inSet .obuf ws then freeCells s.draws (unspecOlen ws s) else s.obuf) := rfl
@[simp] theorem unspecify_olen (ws : List Element) (s : State) : (unspecify ws s).olen = unspecOlen ws s := rfl
@[simp] theorem unspecify_cmd (ws : List Element) (s : State) : (unspecify ws s).cmd = s.cmd := rfl
@[simp] theorem unspecify_wait (ws : List Element) (s : State) : (unspecify ws s).wait = s.wait := rfl
@[simp] theorem unspecify_draws (ws : List Element) (s : State) : (unspecify ws s).draws = s.draws + 3 := rfl
@[simp] theorem unspecify_allocMayFail (ws : List Element) (s : State) : (unspecify ws s).allocMayFail = s.allocMayFail := rfl
@[simp] theorem unspecify_agent (ws : List Element) (s : State) : (unspecify ws s).agent = s.agent := rfl
@[simp] theorem unspecify_host (ws : List Element) (s : State) : (unspecify ws s).host = s.host := rfl
@[simp] theorem unspecify_replies (ws : List Element) (s : State) : (unspecify ws s).replies = s.replies := rfl

@[simp] theorem moveBuffer_busy (s : State) : (moveBuffer s).busy = s.busy := rfl
@[simp] theorem moveBuffer_err (s : State) : (moveBuffer s).err = s.err := rfl
@[simp] theorem moveBuffer_ecode (s : State) : (moveBuffer s).ecode = s.ecode := rfl
@[simp] theorem moveBuffer_cause (s : State) : (moveBuffer s).cause = s.cause := rfl
@[simp] theorem moveBuffer_value (s : State) : (moveBuffer s).value = s.value := rfl
@[simp] theorem moveBuffer_dist (s : State) : (moveBuffer s).dist = s.dist := rfl
@[simp] theorem moveBuffer_len (s : State) : (moveBuffer s).len = s.len := rfl
@[simp] theorem moveBuffer_ibuf (s : State) : (moveBuffer s).ibuf = s.ibuf.storeText 0 (textOf .obuf s) := rfl
@[simp] theorem moveBuffer_ilen (s : State) : (moveBuffer s).ilen = s.olen := rfl
@[simp] theorem moveBuffer_icur (s : State) : (moveBuffer s).icur = 0 := rfl
@[simp] theorem moveBuffer_obuf (s : State) : (moveBuffer s).obuf = s.obuf := rfl
@[simp] theorem moveBuffer_olen (s : State) : (moveBuffer s).olen = 0 := rfl
@[simp] theorem moveBuffer_cmd (s : State) : (moveBuffer s).cmd = s.cmd := rfl
@[simp] theorem moveBuffer_wait (s : State) : (moveBuffer s).wait = s.wait := rfl
@[simp] theorem moveBuffer_draws (s : State) : (moveBuffer s).draws = s.draws := rfl
@[simp] theorem moveBuffer_allocMayFail (s : State) : (moveBuffer s).allocMayFail = s.allocMayFail := rfl
@[simp] theorem moveBuffer_agent (s : State) : (moveBuffer s).agent = s.agent := rfl
@[simp] theorem moveBuffer_host (s : State) : (moveBuffer s).host = s.host := rfl
@[simp] theorem moveBuffer_replies (s : State) : (moveBuffer s).replies = s.replies := rfl

@[simp] theorem latch_busy (w : Word) (s : State) : (latch w s).busy = true := rfl
@[simp] theorem latch_err (w : Word) (s : State) : (latch w s).err = s.err := rfl
@[simp] theorem latch_ecode (w : Word) (s : State) : (latch w s).ecode = s.ecode := rfl
@[simp] theorem latch_cause (w : Word) (s : State) : (latch w s).cause = s.cause := rfl
@[simp] theorem latch_value (w : Word) (s : State) : (latch w s).value = s.value := rfl
@[simp] theorem latch_dist (w : Word) (s : State) : (latch w s).dist = s.dist := rfl
@[simp] theorem latch_len (w : Word) (s : State) : (latch w s).len = s.len := rfl
@[simp] theorem latch_ibuf (w : Word) (s : State) : (latch w s).ibuf = s.ibuf := rfl
@[simp] theorem latch_ilen (w : Word) (s : State) : (latch w s).ilen = s.ilen := rfl
@[simp] theorem latch_icur (w : Word) (s : State) : (latch w s).icur = s.icur := rfl
@[simp] theorem latch_obuf (w : Word) (s : State) : (latch w s).obuf = s.obuf := rfl
@[simp] theorem latch_olen (w : Word) (s : State) : (latch w s).olen = s.olen := rfl
@[simp] theorem latch_cmd (w : Word) (s : State) : (latch w s).cmd = w := rfl
@[simp] theorem latch_wait (w : Word) (s : State) : (latch w s).wait = waitOf w s := rfl
@[simp] theorem latch_draws (w : Word) (s : State) : (latch w s).draws = s.draws + 1 := rfl
@[simp] theorem latch_allocMayFail (w : Word) (s : State) : (latch w s).allocMayFail = s.allocMayFail := rfl
@[simp] theorem latch_agent (w : Word) (s : State) : (latch w s).agent = s.agent := rfl
@[simp] theorem latch_host (w : Word) (s : State) : (latch w s).host = s.host := rfl
@[simp] theorem latch_replies (w : Word) (s : State) : (latch w s).replies = s.replies := rfl

@[simp] theorem pushReply_busy (r : Reply) (s : State) : (pushReply r s).busy = s.busy := rfl
@[simp] theorem pushReply_err (r : Reply) (s : State) : (pushReply r s).err = s.err := rfl
@[simp] theorem pushReply_ecode (r : Reply) (s : State) : (pushReply r s).ecode = s.ecode := rfl
@[simp] theorem pushReply_cause (r : Reply) (s : State) : (pushReply r s).cause = s.cause := rfl
@[simp] theorem pushReply_value (r : Reply) (s : State) : (pushReply r s).value = s.value := rfl
@[simp] theorem pushReply_dist (r : Reply) (s : State) : (pushReply r s).dist = s.dist := rfl
@[simp] theorem pushReply_len (r : Reply) (s : State) : (pushReply r s).len = s.len := rfl
@[simp] theorem pushReply_ibuf (r : Reply) (s : State) : (pushReply r s).ibuf = s.ibuf := rfl
@[simp] theorem pushReply_ilen (r : Reply) (s : State) : (pushReply r s).ilen = s.ilen := rfl
@[simp] theorem pushReply_icur (r : Reply) (s : State) : (pushReply r s).icur = s.icur := rfl
@[simp] theorem pushReply_obuf (r : Reply) (s : State) : (pushReply r s).obuf = s.obuf := rfl
@[simp] theorem pushReply_olen (r : Reply) (s : State) : (pushReply r s).olen = s.olen := rfl
@[simp] theorem pushReply_cmd (r : Reply) (s : State) : (pushReply r s).cmd = s.cmd := rfl
@[simp] theorem pushReply_wait (r : Reply) (s : State) : (pushReply r s).wait = s.wait := rfl
@[simp] theorem pushReply_draws (r : Reply) (s : State) : (pushReply r s).draws = s.draws := rfl
@[simp] theorem pushReply_allocMayFail (r : Reply) (s : State) : (pushReply r s).allocMayFail = s.allocMayFail := rfl
@[simp] theorem pushReply_agent (r : Reply) (s : State) : (pushReply r s).agent = s.agent := rfl
@[simp] theorem pushReply_host (r : Reply) (s : State) : (pushReply r s).host = s.host := rfl
@[simp] theorem pushReply_replies (r : Reply) (s : State) : (pushReply r s).replies = r :: s.replies := rfl

@[simp] theorem serve_busy (a : Option Nat) (s : State) : (serve a s).busy = s.busy := rfl
@[simp] theorem serve_err (a : Option Nat) (s : State) : (serve a s).err = s.err := rfl
@[simp] theorem serve_ecode (a : Option Nat) (s : State) : (serve a s).ecode = s.ecode := rfl
@[simp] theorem serve_cause (a : Option Nat) (s : State) : (serve a s).cause = s.cause := rfl
@[simp] theorem serve_value (a : Option Nat) (s : State) : (serve a s).value = s.value := rfl
@[simp] theorem serve_dist (a : Option Nat) (s : State) : (serve a s).dist = s.dist := rfl
@[simp] theorem serve_len (a : Option Nat) (s : State) : (serve a s).len = s.len := rfl
@[simp] theorem serve_ibuf (a : Option Nat) (s : State) : (serve a s).ibuf = s.ibuf := rfl
@[simp] theorem serve_ilen (a : Option Nat) (s : State) : (serve a s).ilen = s.ilen := rfl
@[simp] theorem serve_icur (a : Option Nat) (s : State) : (serve a s).icur = s.icur := rfl
@[simp] theorem serve_obuf (a : Option Nat) (s : State) : (serve a s).obuf = s.obuf := rfl
@[simp] theorem serve_olen (a : Option Nat) (s : State) : (serve a s).olen = s.olen := rfl
@[simp] theorem serve_cmd (a : Option Nat) (s : State) : (serve a s).cmd = s.cmd := rfl
@[simp] theorem serve_wait (a : Option Nat) (s : State) : (serve a s).wait = s.wait := rfl
@[simp] theorem serve_draws (a : Option Nat) (s : State) : (serve a s).draws = s.draws := rfl
@[simp] theorem serve_allocMayFail (a : Option Nat) (s : State) : (serve a s).allocMayFail = s.allocMayFail := rfl
@[simp] theorem serve_agent (a : Option Nat) (s : State) : (serve a s).agent = a := rfl
@[simp] theorem serve_host (a : Option Nat) (s : State) : (serve a s).host = s.host := rfl
@[simp] theorem serve_replies (a : Option Nat) (s : State) : (serve a s).replies = s.replies := rfl

@[simp] theorem takeEvent_busy (rest : List HostEvent) (s : State) : (takeEvent rest s).busy = s.busy := rfl
@[simp] theorem takeEvent_err (rest : List HostEvent) (s : State) : (takeEvent rest s).err = s.err := rfl
@[simp] theorem takeEvent_ecode (rest : List HostEvent) (s : State) : (takeEvent rest s).ecode = s.ecode := rfl
@[simp] theorem takeEvent_cause (rest : List HostEvent) (s : State) : (takeEvent rest s).cause = s.cause := rfl
@[simp] theorem takeEvent_value (rest : List HostEvent) (s : State) : (takeEvent rest s).value = s.value := rfl
@[simp] theorem takeEvent_dist (rest : List HostEvent) (s : State) : (takeEvent rest s).dist = s.dist := rfl
@[simp] theorem takeEvent_len (rest : List HostEvent) (s : State) : (takeEvent rest s).len = s.len := rfl
@[simp] theorem takeEvent_ibuf (rest : List HostEvent) (s : State) : (takeEvent rest s).ibuf = s.ibuf := rfl
@[simp] theorem takeEvent_ilen (rest : List HostEvent) (s : State) : (takeEvent rest s).ilen = s.ilen := rfl
@[simp] theorem takeEvent_icur (rest : List HostEvent) (s : State) : (takeEvent rest s).icur = s.icur := rfl
@[simp] theorem takeEvent_obuf (rest : List HostEvent) (s : State) : (takeEvent rest s).obuf = s.obuf := rfl
@[simp] theorem takeEvent_olen (rest : List HostEvent) (s : State) : (takeEvent rest s).olen = s.olen := rfl
@[simp] theorem takeEvent_cmd (rest : List HostEvent) (s : State) : (takeEvent rest s).cmd = s.cmd := rfl
@[simp] theorem takeEvent_wait (rest : List HostEvent) (s : State) : (takeEvent rest s).wait = s.wait - 1 := rfl
@[simp] theorem takeEvent_draws (rest : List HostEvent) (s : State) : (takeEvent rest s).draws = s.draws := rfl
@[simp] theorem takeEvent_allocMayFail (rest : List HostEvent) (s : State) : (takeEvent rest s).allocMayFail = s.allocMayFail := rfl
@[simp] theorem takeEvent_agent (rest : List HostEvent) (s : State) : (takeEvent rest s).agent = s.agent := rfl
@[simp] theorem takeEvent_host (rest : List HostEvent) (s : State) : (takeEvent rest s).host = rest := rfl
@[simp] theorem takeEvent_replies (rest : List HostEvent) (s : State) : (takeEvent rest s).replies = s.replies := rfl

@[simp] theorem putBack_busy (e : HostEvent) (s : State) : (putBack e s).busy = s.busy := rfl
@[simp] theorem putBack_err (e : HostEvent) (s : State) : (putBack e s).err = s.err := rfl
@[simp] theorem putBack_ecode (e : HostEvent) (s : State) : (putBack e s).ecode = s.ecode := rfl
@[simp] theorem putBack_cause (e : HostEvent) (s : State) : (putBack e s).cause = s.cause := rfl
@[simp] theorem putBack_value (e : HostEvent) (s : State) : (putBack e s).value = s.value := rfl
@[simp] theorem putBack_dist (e : HostEvent) (s : State) : (putBack e s).dist = s.dist := rfl
@[simp] theorem putBack_len (e : HostEvent) (s : State) : (putBack e s).len = s.len := rfl
@[simp] theorem putBack_ibuf (e : HostEvent) (s : State) : (putBack e s).ibuf = s.ibuf := rfl
@[simp] theorem putBack_ilen (e : HostEvent) (s : State) : (putBack e s).ilen = s.ilen := rfl
@[simp] theorem putBack_icur (e : HostEvent) (s : State) : (putBack e s).icur = s.icur := rfl
@[simp] theorem putBack_obuf (e : HostEvent) (s : State) : (putBack e s).obuf = s.obuf := rfl
@[simp] theorem putBack_olen (e : HostEvent) (s : State) : (putBack e s).olen = s.olen := rfl
@[simp] theorem putBack_cmd (e : HostEvent) (s : State) : (putBack e s).cmd = s.cmd := rfl
@[simp] theorem putBack_wait (e : HostEvent) (s : State) : (putBack e s).wait = s.wait := rfl
@[simp] theorem putBack_draws (e : HostEvent) (s : State) : (putBack e s).draws = s.draws := rfl
@[simp] theorem putBack_allocMayFail (e : HostEvent) (s : State) : (putBack e s).allocMayFail = s.allocMayFail := rfl
@[simp] theorem putBack_agent (e : HostEvent) (s : State) : (putBack e s).agent = s.agent := rfl
@[simp] theorem putBack_host (e : HostEvent) (s : State) : (putBack e s).host = e :: s.host := rfl
@[simp] theorem putBack_replies (e : HostEvent) (s : State) : (putBack e s).replies = s.replies := rfl

@[simp] theorem resetBlock_busy (s : State) : (resetBlock s).busy = false := rfl
@[simp] theorem resetBlock_err (s : State) : (resetBlock s).err = false := rfl
@[simp] theorem resetBlock_ecode (s : State) : (resetBlock s).ecode = 0#4 := rfl
@[simp] theorem resetBlock_cause (s : State) : (resetBlock s).cause = 0#4 := rfl
@[simp] theorem resetBlock_value (s : State) : (resetBlock s).value = 0#32 := rfl
@[simp] theorem resetBlock_dist (s : State) : (resetBlock s).dist = 0#32 := rfl
@[simp] theorem resetBlock_len (s : State) : (resetBlock s).len = 0#32 := rfl
@[simp] theorem resetBlock_ibuf (s : State) : (resetBlock s).ibuf = [] := rfl
@[simp] theorem resetBlock_ilen (s : State) : (resetBlock s).ilen = 0 := rfl
@[simp] theorem resetBlock_icur (s : State) : (resetBlock s).icur = 0 := rfl
@[simp] theorem resetBlock_obuf (s : State) : (resetBlock s).obuf = [] := rfl
@[simp] theorem resetBlock_olen (s : State) : (resetBlock s).olen = 0 := rfl
@[simp] theorem resetBlock_cmd (s : State) : (resetBlock s).cmd = 0#32 := rfl
@[simp] theorem resetBlock_wait (s : State) : (resetBlock s).wait = 0 := rfl
@[simp] theorem resetBlock_draws (s : State) : (resetBlock s).draws = s.draws := rfl
@[simp] theorem resetBlock_allocMayFail (s : State) : (resetBlock s).allocMayFail = s.allocMayFail := rfl
@[simp] theorem resetBlock_agent (s : State) : (resetBlock s).agent = none := rfl
@[simp] theorem resetBlock_host (s : State) : (resetBlock s).host = s.host := rfl
@[simp] theorem resetBlock_replies (s : State) : (resetBlock s).replies = s.replies := rfl

@[simp] theorem placeCommand_busy (w : Word) (s : State) : (placeCommand w s).busy = true := rfl
@[simp] theorem placeCommand_err (w : Word) (s : State) : (placeCommand w s).err = s.err := rfl
@[simp] theorem placeCommand_ecode (w : Word) (s : State) : (placeCommand w s).ecode = s.ecode := rfl
@[simp] theorem placeCommand_cause (w : Word) (s : State) : (placeCommand w s).cause = s.cause := rfl
@[simp] theorem placeCommand_value (w : Word) (s : State) : (placeCommand w s).value = s.value := rfl
@[simp] theorem placeCommand_dist (w : Word) (s : State) : (placeCommand w s).dist = s.dist := rfl
@[simp] theorem placeCommand_len (w : Word) (s : State) : (placeCommand w s).len = s.len := rfl
@[simp] theorem placeCommand_ibuf (w : Word) (s : State) : (placeCommand w s).ibuf = s.ibuf := rfl
@[simp] theorem placeCommand_ilen (w : Word) (s : State) : (placeCommand w s).ilen = s.ilen := rfl
@[simp] theorem placeCommand_icur (w : Word) (s : State) : (placeCommand w s).icur = s.icur := rfl
@[simp] theorem placeCommand_obuf (w : Word) (s : State) : (placeCommand w s).obuf = s.obuf := rfl
@[simp] theorem placeCommand_olen (w : Word) (s : State) : (placeCommand w s).olen = s.olen := rfl
@[simp] theorem placeCommand_cmd (w : Word) (s : State) : (placeCommand w s).cmd = w := rfl
@[simp] theorem placeCommand_wait (w : Word) (s : State) : (placeCommand w s).wait = 0 := rfl
@[simp] theorem placeCommand_draws (w : Word) (s : State) : (placeCommand w s).draws = s.draws := rfl
@[simp] theorem placeCommand_allocMayFail (w : Word) (s : State) : (placeCommand w s).allocMayFail = s.allocMayFail := rfl
@[simp] theorem placeCommand_agent (w : Word) (s : State) : (placeCommand w s).agent = s.agent := rfl
@[simp] theorem placeCommand_host (w : Word) (s : State) : (placeCommand w s).host = s.host := rfl
@[simp] theorem placeCommand_replies (w : Word) (s : State) : (placeCommand w s).replies = s.replies := rfl

end Sys2Proof.Machine
end

