-- ==== Sys2Proof/Laws/Ops.lean ====
section
/-! SUPPORT. What each shared operation can do, said once. -/

namespace Sys2Proof.Machine

/-- The state a piece of work ends in, whether it is done or raised. -/
def Work.state (w : Work) : State :=
  match w with
  | .done s => s
  | .raised _ s => s

@[simp] theorem Work.state_done (s : State) : (Work.done s).state = s := rfl
@[simp] theorem Work.state_raised (e : Err) (s : State) : (Work.raised e s).state = s := rfl
@[simp] theorem Work.andThen_done (s : State) (k : State → Work) : (Work.done s).andThen k = k s := rfl
@[simp] theorem Work.andThen_raised (e : Err) (s : State) (k : State → Work) :
    (Work.raised e s).andThen k = .raised e s := rfl

/-- Work done in two parts is done in each. -/
theorem Work.andThen_eq_done (w : Work) (k : State → Work) (t : State) :
    w.andThen k = .done t ↔ ∃ s, w = .done s ∧ k s = .done t := by
  cases w <;> simp [Work.andThen]

/-- Work raised in two parts is raised in one of them. -/
theorem Work.andThen_eq_raised (w : Work) (k : State → Work) (e : Err) (t : State) :
    w.andThen k = .raised e t ↔ w = .raised e t ∨ ∃ s, w = .done s ∧ k s = .raised e t := by
  cases w <;> simp [Work.andThen]

/-- `t` differs from `s` at most in the cells and the length of `b` and in the draws. -/
def KeepsRest (b : Buffer) (s t : State) : Prop :=
  t = { setBuffer b (cellsOf b t) (lengthOf b t) s with draws := t.draws }

theorem KeepsRest.refl (b : Buffer) (s : State) : KeepsRest b s s := by cases b <;> rfl

theorem KeepsRest.trans {b : Buffer} {s t u : State} (h : KeepsRest b s t) (h' : KeepsRest b t u) :
    KeepsRest b s u := by
  unfold KeepsRest at *
  rw [h'.trans (by rw [h])]
  cases b <;> rfl

/-- Each field the work may not change keeps its value. -/
theorem KeepsRest.fields {b : Buffer} {s t : State} (h : KeepsRest b s t) :
    t.busy = s.busy ∧ t.err = s.err ∧ t.ecode = s.ecode ∧ t.cause = s.cause ∧ t.value = s.value ∧
    t.dist = s.dist ∧ t.len = s.len ∧ t.icur = s.icur ∧ t.cmd = s.cmd ∧ t.wait = s.wait ∧
    t.allocMayFail = s.allocMayFail ∧ t.agent = s.agent ∧ t.host = s.host ∧ t.replies = s.replies := by
  unfold KeepsRest at h; rw [h]; cases b <;> simp [setBuffer]

theorem KeepsRest.input {s t : State} (h : KeepsRest .obuf s t) : t.ibuf = s.ibuf ∧ t.ilen = s.ilen := by
  unfold KeepsRest at h; rw [h]; simp [setBuffer]

theorem KeepsRest.output {s t : State} (h : KeepsRest .ibuf s t) : t.obuf = s.obuf ∧ t.olen = s.olen := by
  unfold KeepsRest at h; rw [h]; simp [setBuffer]

theorem KeepsRest.allocAsked (b : Buffer) (s : State) : KeepsRest b s (allocAsked s) := by
  unfold Machine.allocAsked; split <;> cases b <;> rfl

theorem KeepsRest.storeChar (b : Buffer) (c : Byte) (s : State) : KeepsRest b s (storeChar b c s) := by
  cases b <;> rfl

@[simp] theorem allocAsked_of_never (s : State) (h : s.allocMayFail = false) : allocAsked s = s := by
  simp [allocAsked, h]

@[simp] theorem allocRefused_of_never (s : State) (h : s.allocMayFail = false) : allocRefused s = false := by
  simp [allocRefused, h]

@[simp] theorem cellsOf_allocAsked (b : Buffer) (s : State) : cellsOf b (allocAsked s) = cellsOf b s := by
  unfold allocAsked; split <;> cases b <;> rfl

@[simp] theorem lengthOf_allocAsked (b : Buffer) (s : State) : lengthOf b (allocAsked s) = lengthOf b s := by
  unfold allocAsked; split <;> cases b <;> rfl

@[simp] theorem cellsOf_storeChar (b : Buffer) (c : Byte) (s : State) :
    cellsOf b (storeChar b c s) = (cellsOf b s).write (lengthOf b s) c := by cases b <;> rfl

@[simp] theorem lengthOf_storeChar (b : Buffer) (c : Byte) (s : State) :
    lengthOf b (storeChar b c s) = lengthOf b s + 1 := by cases b <;> rfl

/-- Everything an append can do (R140, R255). -/
theorem append_cases (b : Buffer) (c : Byte) (s : State) :
    (keep c = false ∧ append b c s = .done s) ∨
    (keep c = true ∧ Config.cap ≤ lengthOf b s ∧ append b c s = .raised .tooLong s) ∨
    (keep c = true ∧ lengthOf b s < Config.cap ∧ allocRefused s = true ∧
      append b c s = .raised .allocFailed (allocAsked s)) ∨
    (keep c = true ∧ lengthOf b s < Config.cap ∧ allocRefused s = false ∧
      append b c s = .done (storeChar b c (allocAsked s))) := by
  unfold append
  cases keep c <;> cases allocRefused s <;> by_cases h : Config.cap ≤ lengthOf b s <;> simp [h] <;> omega

/-- A kept character is not what an unlisted cell reads as. -/
theorem ne_zero_of_keep {c : Byte} (h : keep c = true) : c ≠ 0#8 := by
  rintro rfl; exact absurd h (by decide)

/-- A stored kept character stands at the end of the buffer's text. -/
theorem textOf_storeChar (b : Buffer) (c : Byte) (s : State) (hc : c ≠ 0#8) :
    textOf b (storeChar b c s) = textOf b s ++ [c] := by
  unfold textOf
  rw [cellsOf_storeChar, lengthOf_storeChar, Memory.slice_succ, Nat.zero_add, Memory.read_write_eq_of_ne _ _ _ hc]
  congr 1
  exact Memory.slice_congr _ _ _ _ fun x _ h => Memory.read_write_ne _ _ _ _ (by omega)

theorem textOf_length (b : Buffer) (s : State) : (textOf b s).length = lengthOf b s := by simp [textOf]

theorem append_keepsRest (b : Buffer) (c : Byte) (s : State) : KeepsRest b s (append b c s).state := by
  rcases append_cases b c s with ⟨_, h⟩ | ⟨_, _, h⟩ | ⟨_, _, _, h⟩ | ⟨_, _, _, h⟩ <;> rw [h]
  · exact .refl b s
  · exact .refl b s
  · exact .allocAsked b s
  · exact (KeepsRest.allocAsked b s).trans (.storeChar b c _)

theorem Work.keepsRest_andThen {b : Buffer} {s : State} {w : Work} {k : State → Work}
    (h : KeepsRest b s w.state) (hk : ∀ t, KeepsRest b t (k t).state) : KeepsRest b s (w.andThen k).state := by
  cases w with
  | done t => exact h.trans (hk t)
  | raised e t => exact h

theorem appendText_keepsRest (b : Buffer) (t : List Byte) (s : State) :
    KeepsRest b s (appendText b t s).state := by
  induction t generalizing s with
  | nil => exact .refl b s
  | cons c t ih => exact Work.keepsRest_andThen (append_keepsRest b c s) ih

theorem expand_keepsRest (d l : Nat) (s : State) : KeepsRest .obuf s (expand d l s).state := by
  induction l generalizing s with
  | zero => exact .refl _ s
  | succ l ih => exact Work.keepsRest_andThen (append_keepsRest _ _ s) ih

theorem backref_keepsRest (d l : Nat) (s : State) : KeepsRest .obuf s (backref d l s).state := by
  unfold backref
  split
  · exact .refl _ s
  · split
    · exact .refl _ s
    · exact expand_keepsRest d l s

/-- Where no allocation fails, a kept character fits below the ceiling. -/
theorem append_kept (b : Buffer) (c : Byte) (s : State) (hc : keep c = true) (hl : lengthOf b s < Config.cap)
    (ha : s.allocMayFail = false) : append b c s = .done (storeChar b c s) := by
  unfold append
  rw [if_neg (by simp [hc]), if_neg (by omega), allocRefused_of_never s ha, allocAsked_of_never s ha]
  simp

theorem storeChar_allocMayFail (b : Buffer) (c : Byte) (s : State) :
    (storeChar b c s).allocMayFail = s.allocMayFail := by cases b <;> rfl

theorem storeChar_draws (b : Buffer) (c : Byte) (s : State) : (storeChar b c s).draws = s.draws := by
  cases b <;> rfl

/-- A text of kept characters that fits is appended whole. -/
theorem appendText_fits (b : Buffer) (t : List Byte) (s : State) (ht : ∀ c ∈ t, keep c = true)
    (hl : lengthOf b s + t.length ≤ Config.cap) (ha : s.allocMayFail = false) :
    ∃ s', appendText b t s = .done s' ∧ textOf b s' = textOf b s ++ t ∧ lengthOf b s' = lengthOf b s + t.length ∧
      cellsOf b s' = (cellsOf b s).storeText (lengthOf b s) t ∧ s'.draws = s.draws ∧ KeepsRest b s s' := by
  induction t generalizing s with
  | nil => exact ⟨s, rfl, by simp, rfl, rfl, rfl, .refl b s⟩
  | cons c t ih =>
    simp only [List.length_cons] at hl
    have hc := ht c (by simp)
    obtain ⟨s', h1, h2, h3, h4, h5, h6⟩ := ih (storeChar b c s) (fun x hx => ht x (by simp [hx]))
      (by rw [lengthOf_storeChar]; omega) (by rw [storeChar_allocMayFail, ha])
    refine ⟨s', ?_, ?_, ?_, ?_, ?_, (KeepsRest.storeChar b c s).trans h6⟩
    · rw [appendText, append_kept b c s hc (by omega) ha, Work.andThen_done, h1]
    · rw [h2, textOf_storeChar b c s (ne_zero_of_keep hc)]; simp
    · rw [h3, lengthOf_storeChar]; simp; omega
    · rw [h4, cellsOf_storeChar, lengthOf_storeChar]; rfl
    · rw [h5, storeChar_draws]

/-- A text of kept characters that does not fit raises FORMAT_TOO_LONG. -/
theorem appendText_too_long (b : Buffer) (t : List Byte) (s : State) (ht : ∀ c ∈ t, keep c = true)
    (hl : Config.cap < lengthOf b s + t.length) (hne : t ≠ []) (ha : s.allocMayFail = false) :
    ∃ s', appendText b t s = .raised .tooLong s' ∧ s'.draws = s.draws ∧ KeepsRest b s s' := by
  induction t generalizing s with
  | nil => exact absurd rfl hne
  | cons c t ih =>
    simp only [List.length_cons] at hl
    have hc := ht c (by simp)
    by_cases hfull : Config.cap ≤ lengthOf b s
    · refine ⟨s, ?_, rfl, .refl b s⟩
      rw [appendText, append, if_neg (by simp [hc]), if_pos hfull, Work.andThen_raised]
    · have hne' : t ≠ [] := by rintro rfl; simp at hl; omega
      obtain ⟨s', h1, h2, h3⟩ := ih (storeChar b c s) (fun x hx => ht x (by simp [hx]))
        (by rw [lengthOf_storeChar]; omega) hne' (by rw [storeChar_allocMayFail, ha])
      refine ⟨s', ?_, ?_, (KeepsRest.storeChar b c s).trans h3⟩
      · rw [appendText, append_kept b c s hc (by omega) ha, Work.andThen_done, h1]
      · rw [h2, storeChar_draws]

/-- How a finished command ends: with a next state, always. -/
theorem finish_cases (i : Instr) (w : Work) :
    (∃ s, w = .done s ∧ finish i w = .next (complete s)) ∨
    (∃ e s, w = .raised e s ∧ finish i w = .next (complete (raiseErr (writeSet i) e s))) := by
  cases w with
  | done s => exact .inl ⟨s, rfl, rfl⟩
  | raised e s => exact .inr ⟨e, s, rfl, rfl⟩

theorem performed_err (k : State → Result) (s : State) (h : s.err = true) :
    performed k s = .next (complete s) := by simp [performed, h]

theorem performed_ok (k : State → Result) (s : State) (h : s.err = false) : performed k s = k s := by
  simp [performed, h]

/-- An error detected before any write changes no state but STATUS (R243). -/
theorem raiseErr_precise (ws : List Element) (e : Err) (s : State) (h : errPrecise e = true) :
    raiseErr ws e s = recordError e s := by simp [raiseErr, h]

/-- Any other error leaves the write set unspecified (R243). -/
theorem raiseErr_imprecise (ws : List Element) (e : Err) (s : State) (h : errPrecise e = false) :
    raiseErr ws e s = recordError e (unspecify ws s) := by simp [raiseErr, h]

/-- An unspecified length lies between its bounds. -/
theorem freeLength_bounds (d lo : Nat) (h : lo ≤ Config.cap) :
    lo ≤ freeLength d lo ∧ freeLength d lo ≤ Config.cap := by
  unfold freeLength
  have := Nat.mod_lt (Config.freeNat d) (Nat.succ_pos (Config.cap - lo))
  simp only [Nat.succ_eq_add_one] at this
  omega

/-- An unspecified cursor is at most the length. -/
theorem freeCursor_le (d n : Nat) : freeCursor d n ≤ n := by
  unfold freeCursor
  have := Nat.mod_lt (Config.freeNat d) (Nat.succ_pos n)
  simp only [Nat.succ_eq_add_one] at this
  omega

theorem freeCells_wf (d n : Nat) : (freeCells d n).wf = true := Memory.wf_storeText _ _ _ rfl

theorem freeCells_bounded (d n : Nat) (h : n ≤ Config.cap) : (freeCells d n).bounded = true :=
  Memory.bounded_storeText _ _ _ (by simpa using h) rfl

/-- The bounds R243 keeps on what it leaves unspecified. -/
theorem unspecify_bounds (ws : List Element) (s : State) (h1 : s.icur ≤ s.ilen) (h2 : s.ilen ≤ Config.cap)
    (h3 : s.olen ≤ Config.cap) :
    (unspecify ws s).icur ≤ (unspecify ws s).ilen ∧ (unspecify ws s).ilen ≤ Config.cap ∧
      (unspecify ws s).olen ≤ Config.cap := by
  simp only [unspecify_icur, unspecify_ilen, unspecify_olen, unspecIcur, unspecIlen, unspecOlen]
  have a1 := freeLength_bounds (s.draws + 1) 0 (by simp [Config.cap])
  have a2 := freeLength_bounds (s.draws + 1) s.icur (by omega)
  have a3 := freeLength_bounds s.draws 0 (by simp [Config.cap])
  have a4 := freeCursor_le (s.draws + 2)
  cases inSet .ilen ws <;> cases inSet .icur ws <;> cases inSet .olen ws <;>
    simp only [if_true, if_false, Bool.false_eq_true] <;>
    refine ⟨?_, ?_, ?_⟩ <;> first | omega | exact a4 _

end Sys2Proof.Machine
end

