-- ==== Sys2Proof/Laws/Text.lean ====
section
/-! SUPPORT. The characters the encoders write, and how far the readers read. -/

namespace Sys2Proof.Machine

/-- The digits are kept characters. -/
theorem keep_digit (v : Nat) : keep (digit v) = true := by
  by_cases h : v < 64
  · have : ∀ w : Fin 64, keep (digit w.val) = true := by decide
    exact this ⟨v, h⟩
  · have : digit v = 0x3B#8 := by
      unfold digit
      rw [if_neg (by omega), if_neg (by omega), if_neg (by omega), if_neg (by omega)]
    rw [this]; decide

/-- The compact-tier prefixes are kept characters. -/
theorem keep_tier (v : Nat) (h : v < 896) (h' : 64 ≤ v) : keep (chr (0x22 + v / 64)) = true := by
  have hb : v / 64 < 14 := by omega
  have : ∀ w : Fin 14, 1 ≤ w.val → keep (chr (0x22 + w.val)) = true := by decide
  exact this ⟨v / 64, hb⟩ (by show 1 ≤ v / 64; omega)

/-- Every character the encoder writes is kept (41_varint.md R112). -/
theorem keep_encodeValue (v : Nat) : ∀ c ∈ encodeValue v, keep c = true := by
  unfold encodeValue
  split
  · simp [keep_digit]
  · split
    · simp only [List.mem_cons, List.not_mem_nil, or_false]
      rintro c (rfl | rfl)
      · exact keep_tier v (by omega) (by omega)
      · exact keep_digit _
    · repeat' split
      all_goals
        simp only [List.mem_cons, List.not_mem_nil, or_false]
        intro c hc
        rcases hc with rfl | hc
        · decide
        · rcases hc with rfl | rfl | rfl | rfl <;> exact keep_digit _

theorem encodeValue_ne_nil (v : Nat) : encodeValue v ≠ [] := by
  unfold encodeValue; repeat' split
  all_goals simp

@[simp] theorem nextDigit_nil : nextDigit [] = .bad .truncated := rfl

theorem nextDigit_cons (c : Byte) (t : List Byte) :
    nextDigit (c :: t) = if isDigit c then .ok (digval c) t else .bad .invalidNumeric := rfl

theorem digval_lt (c : Byte) (h : isDigit c = true) : digval c < 64 := by
  have : ∀ c : Byte, isDigit c = true → digval c < 64 := by decide
  exact this c h

/-- What reading a digit can answer. -/
theorem nextDigit_ok {t rest : List Byte} {v : Nat} (h : nextDigit t = .ok v rest) :
    ∃ c, t = c :: rest ∧ isDigit c = true ∧ v = digval c ∧ v < 64 := by
  cases t with
  | nil => simp at h
  | cons c t =>
    rw [nextDigit_cons] at h
    split at h
    · rename_i hd; cases h; exact ⟨c, rfl, hd, rfl, digval_lt c hd⟩
    · cases h

/-- What reading digits can answer: their number of characters, and a value below the next power of 64. -/
theorem nextDigits_ok {n v w : Nat} {t rest : List Byte} (h : nextDigits n v t = .ok w rest) :
    ∃ used, t = used ++ rest ∧ used.length = n ∧ v * 64 ^ n ≤ w ∧ w < (v + 1) * 64 ^ n := by
  induction n generalizing v t with
  | zero => cases h; exact ⟨[], rfl, rfl, by simp, by simp⟩
  | succ n ih =>
    rw [nextDigits] at h
    split at h
    · cases h
    · rename_i d t' hd
      obtain ⟨c, rfl, _, _, hlt⟩ := nextDigit_ok hd
      obtain ⟨used, rfl, hl, h1, h2⟩ := ih h
      refine ⟨c :: used, rfl, by simp [hl], ?_, ?_⟩
      · calc v * 64 ^ (n + 1) = v * 64 * 64 ^ n := by ring
          _ ≤ (v * 64 + d) * 64 ^ n := Nat.mul_le_mul_right _ (by omega)
          _ ≤ w := h1
      · calc w < (v * 64 + d + 1) * 64 ^ n := h2
          _ ≤ ((v + 1) * 64) * 64 ^ n := Nat.mul_le_mul_right _ (by omega)
          _ = (v + 1) * 64 ^ (n + 1) := by ring

/-- Only a missing character or a bad digit stops the readers (R117). -/
theorem nextDigits_bad {n v : Nat} {t : List Byte} {e : Err} (h : nextDigits n v t = .bad e) :
    e = .truncated ∨ e = .invalidNumeric := by
  induction n generalizing v t with
  | zero => cases h
  | succ n ih =>
    rw [nextDigits] at h
    split at h
    · rename_i e' hd
      cases h
      cases t with
      | nil => simp at hd; exact .inl hd.symm
      | cons c t =>
        rw [nextDigit_cons] at hd
        split at hd
        · cases hd
        · cases hd; exact .inr rfl
    · exact ih h

/-- Digits read from a text are read the same with more text behind it. -/
theorem nextDigits_append {n v w : Nat} {t rest : List Byte} (more : List Byte)
    (h : nextDigits n v t = .ok w rest) : nextDigits n v (t ++ more) = .ok w (rest ++ more) := by
  induction n generalizing v t with
  | zero => cases h; rfl
  | succ n ih =>
    rw [nextDigits] at h ⊢
    split at h
    · cases h
    · rename_i d t' hd
      obtain ⟨c, rfl, hc, rfl, _⟩ := nextDigit_ok hd
      rw [List.cons_append, nextDigit_cons, if_pos hc]
      exact ih h

/-- What decoding a value can answer, and what decides it (R116). -/
theorem decodeValue_cases (t : List Byte) :
    (t = [] ∧ decodeValue t = .bad .truncated) ∨
    (∃ c r, t = c :: r ∧
      ((isTier c = true ∧ decodeValue t = nextDigits 1 (c.toNat - 0x22) r) ∨
       (isTier c = false ∧ longDigits c ≠ 0 ∧ decodeValue t = nextDigits (longDigits c) 0 r) ∨
       (isTier c = false ∧ longDigits c = 0 ∧ isDigit c = true ∧ decodeValue t = .ok (digval c) r) ∨
       (isTier c = false ∧ longDigits c = 0 ∧ isDigit c = false ∧ decodeValue t = .bad .invalidNumeric))) := by
  cases t with
  | nil => exact .inl ⟨rfl, rfl⟩
  | cons c r =>
    refine .inr ⟨c, r, rfl, ?_⟩
    simp only [decodeValue, nextChar]
    cases hT : isTier c <;> by_cases hL : longDigits c = 0 <;> cases hD : isDigit c <;> simp [hL]

theorem longDigits_le (c : Byte) : longDigits c ≤ 4 := by
  unfold longDigits; repeat' split
  all_goals omega

theorem decodeValue_bad {t : List Byte} {e : Err} (h : decodeValue t = .bad e) :
    e = .truncated ∨ e = .invalidNumeric := by
  rcases decodeValue_cases t with ⟨_, h'⟩ | ⟨c, r, _, ⟨_, h'⟩ | ⟨_, _, h'⟩ | ⟨_, _, _, h'⟩ | ⟨_, _, _, h'⟩⟩ <;>
    rw [h] at h'
  · cases h'; exact .inl rfl
  · exact nextDigits_bad h'.symm
  · exact nextDigits_bad h'.symm
  · cases h'
  · cases h'; exact .inr rfl

/-- A value read from a text is read the same with more text behind it. -/
theorem decodeValue_append {t rest : List Byte} {v : Nat} (more : List Byte) (h : decodeValue t = .ok v rest) :
    decodeValue (t ++ more) = .ok v (rest ++ more) := by
  rcases decodeValue_cases t with ⟨_, h'⟩ | ⟨c, r, rfl, h'⟩
  · rw [h] at h'; cases h'
  · simp only [List.cons_append, decodeValue, nextChar] at h ⊢
    split at h
    · rename_i hT; rw [if_pos hT]; exact nextDigits_append more h
    · rename_i hT
      rw [if_neg hT]
      split at h
      · rename_i hL; rw [if_pos hL]; exact nextDigits_append more h
      · rename_i hL
        rw [if_neg hL]
        split at h
        · rename_i hD; rw [if_pos hD]; cases h; rfl
        · cases h

/-- A value read takes one character at least: the text left is shorter. -/
theorem decodeValue_shorter {t rest : List Byte} {v : Nat} (h : decodeValue t = .ok v rest) :
    rest.length < t.length := by
  rcases decodeValue_cases t with ⟨_, h'⟩ | ⟨c, r, rfl, ⟨_, h'⟩ | ⟨_, _, h'⟩ | ⟨_, _, _, h'⟩ | ⟨_, _, _, h'⟩⟩ <;>
    rw [h] at h'
  · cases h'
  · obtain ⟨used, rfl, _⟩ := nextDigits_ok h'.symm; simp
  · obtain ⟨used, rfl, _⟩ := nextDigits_ok h'.symm; simp
  · cases h'; simp
  · cases h'

/-- What reading the rest of a token can answer (R212, R213). -/
theorem readLength_ok {p : Parsed Nat} {r : Backref} {rest : List Byte} (h : readLength p = .ok r rest) :
    ∃ mid, p = .ok r.dist mid ∧ decodeValue mid = .ok r.len rest := by
  unfold readLength at h
  split at h
  · cases h
  · split at h
    · cases h
    · rename_i h2; cases h; exact ⟨_, rfl, h2⟩

/-- A token takes characters: the text left after it is shorter. -/
theorem readNear_shorter {t rest : List Byte} {r : Backref} (h : readNear t = .ok r rest) :
    rest.length < t.length := by
  obtain ⟨mid, h1, h2⟩ := readLength_ok h
  exact (decodeValue_shorter h2).trans (decodeValue_shorter h1)

theorem readFar_shorter {t rest : List Byte} {r : Backref} (h : readFar t = .ok r rest) :
    rest.length < t.length := by
  obtain ⟨mid, h1, h2⟩ := readLength_ok h
  obtain ⟨used, rfl, hl, _⟩ := nextDigits_ok h1
  have := decodeValue_shorter h2
  simp; omega

theorem unread_length (s : State) : (unread s).length = s.ilen - s.icur := by simp [unread]

end Sys2Proof.Machine
end

