-- ==== Sys2Proof/Laws/Exec.lean ====
section
/-! SUPPORT. What a command can do, said once: its work, its write set, and how it ends. -/

namespace Sys2Proof.Machine

/-- The work a command does on a state without an error. -/
def workOf (i : Instr) (s : State) : Work :=
  match i with
  | .clear => .done (clearError (emptyBuffers s))
  | .iappend => append .ibuf (charOperand s) s
  | .oappend => append .obuf (charOperand s) s
  | .peek => .done (setValue (if s.icur < s.ilen then zextChar (s.ibuf.read s.icur) else 0#32) s)
  | .consume => readToValue (parsedChar (nextChar (unread s))) s
  | .atend => .done (setValue (if s.icur = s.ilen then 1#32 else 0#32) s)
  | .expand => backref s.dist.toNat s.len.toNat s
  | .xfer => .done (moveBuffer s)
  | .venc =>
    if Config.vdomain ≤ s.value.toNat then .raised .valueRange s
    else appendText .obuf (encodeValue s.value.toNat) s
  | .vdec => readToValue (parsedWord (decodeValue (unread s))) s
  | .deflate =>
    if s.olen ≠ 0 then .raised .outputNotEmpty s
    else (appendText .obuf (deflate (unread s)) s).andThen (fun s' => .done (cursorToEnd s'))
  | .inflate =>
    if s.olen ≠ 0 then .raised .outputNotEmpty s
    else (inflateLoop (unread s).length (unread s) s).andThen (fun s' => .done (cursorToEnd s'))

/-- The state a command ends in once its work has ended: EXPAND's INVALID_BACKREF by a draw (log 2), any other error
follows R243. -/
def endOf (i : Instr) (w : Work) : State :=
  match w with
  | .done s => complete s
  | .raised e s =>
    if i = .expand ∧ e = .invalidBackref then complete (refuseExpand s)
    else complete (raiseErr (writeSet i) e s)

/-- How a raised error ends a command: detected before any write, STATUS alone; else the write set is unspecified, or
kept where EXPAND's draw says so. -/
theorem endOf_raised (i : Instr) (e : Err) (s : State) :
    (errPrecise e = true ∧ endOf i (.raised e s) = complete (recordError e s)) ∨
    (errPrecise e = false ∧ endOf i (.raised e s) = complete (recordError e (unspecify (writeSet i) s))) ∨
    (i = .expand ∧ e = .invalidBackref ∧ Config.expandKeeps s.draws = true ∧
      endOf i (.raised e s) = complete (recordError e (advanceDraws 1 s))) := by
  by_cases h : i = .expand ∧ e = .invalidBackref
  · obtain ⟨rfl, rfl⟩ := h
    by_cases hk : Config.expandKeeps s.draws = true <;> simp [endOf, refuseExpand, errPrecise, hk]
  · cases hp : errPrecise e <;> simp [endOf, h, raiseErr, hp]

theorem finish_eq (i : Instr) (w : Work) (h : i ≠ .expand) : finish i w = .next (endOf i w) := by
  cases w <;> simp [finish, endOf, h]

/-- A command always answers a next state: with no error set its work's end, CLEAR always. -/
theorem exec_eq (i : Instr) (s : State) (h : s.err = false ∨ i = .clear) :
    exec i s = .next (endOf i (workOf i s)) := by
  cases i with
  | clear => rfl
  | expand =>
    simp only [reduceCtorEq, or_false] at h
    simp only [exec, execExpand, performed_ok _ _ h, workOf]
    generalize backref s.dist.toNat s.len.toNat s = w
    cases w with
    | done s' => rfl
    | raised e s' => cases e <;> simp [endOf, finish]
  | venc =>
    simp only [reduceCtorEq, or_false] at h
    simp only [exec, execVenc, performed_ok _ _ h, workOf, finish_eq .venc _ (by simp)]
    split <;> rfl
  | deflate =>
    simp only [reduceCtorEq, or_false] at h
    simp only [exec, execDeflate, performed_ok _ _ h, workOf, finish_eq .deflate _ (by simp)]
    split <;> rfl
  | inflate =>
    simp only [reduceCtorEq, or_false] at h
    simp only [exec, execInflate, performed_ok _ _ h, workOf, finish_eq .inflate _ (by simp)]
    split <;> rfl
  | iappend | oappend | peek | consume | atend | xfer | vdec =>
    simp only [reduceCtorEq, or_false] at h
    simp only [exec, execIappend, execOappend, execPeek, execConsume, execAtend, execXfer, execVdec,
      performed_ok _ _ h, workOf]
    exact finish_eq _ _ (by simp)

/-- While `ERR` = 1 a command other than CLEAR only completes (R244). -/
theorem exec_sticky (i : Instr) (s : State) (h : s.err = true) (hi : i ≠ .clear) :
    exec i s = .next (complete s) := by
  cases i <;>
    simp_all [exec, execIappend, execOappend, execPeek, execConsume, execAtend, execExpand, execXfer, execVenc,
      execVdec, execDeflate, execInflate, performed_err]

/-- The three ways a command can end, and that it always ends in a next state. -/
theorem exec_cases (i : Instr) (s t : State) (h : exec i s = .next t) :
    (s.err = true ∧ i ≠ .clear ∧ t = complete s) ∨
    ((s.err = false ∨ i = .clear) ∧ t = endOf i (workOf i s)) := by
  by_cases hi : s.err = false ∨ i = .clear
  · rw [exec_eq i s hi] at h; cases h; exact .inr ⟨hi, rfl⟩
  · simp only [not_or, Bool.not_eq_false] at hi
    rw [exec_sticky i s hi.1 hi.2] at h; cases h; exact .inl ⟨hi.1, hi.2, rfl⟩

/-- `t` differs from `s` at most in the elements of a write set and in the draws. -/
structure Within (ws : List Element) (s t : State) : Prop where
  busy : t.busy = s.busy
  err : t.err = s.err
  ecode : t.ecode = s.ecode
  cause : t.cause = s.cause
  value : Element.value ∉ ws → t.value = s.value
  dist : t.dist = s.dist
  len : t.len = s.len
  ibuf : Element.ibuf ∉ ws → t.ibuf = s.ibuf
  ilen : Element.ilen ∉ ws → t.ilen = s.ilen
  icur : Element.icur ∉ ws → t.icur = s.icur
  obuf : Element.obuf ∉ ws → t.obuf = s.obuf
  olen : Element.olen ∉ ws → t.olen = s.olen
  cmd : t.cmd = s.cmd
  wait : t.wait = s.wait
  allocMayFail : t.allocMayFail = s.allocMayFail
  agent : t.agent = s.agent
  host : t.host = s.host
  replies : t.replies = s.replies

theorem Within.refl (ws : List Element) (s : State) : Within ws s s := by constructor <;> simp

theorem Within.trans {ws : List Element} {s t u : State} (h : Within ws s t) (k : Within ws t u) :
    Within ws s u :=
  ⟨k.busy.trans h.busy, k.err.trans h.err, k.ecode.trans h.ecode, k.cause.trans h.cause,
    fun x => (k.value x).trans (h.value x), k.dist.trans h.dist, k.len.trans h.len,
    fun x => (k.ibuf x).trans (h.ibuf x), fun x => (k.ilen x).trans (h.ilen x),
    fun x => (k.icur x).trans (h.icur x), fun x => (k.obuf x).trans (h.obuf x),
    fun x => (k.olen x).trans (h.olen x), k.cmd.trans h.cmd, k.wait.trans h.wait,
    k.allocMayFail.trans h.allocMayFail, k.agent.trans h.agent, k.host.trans h.host, k.replies.trans h.replies⟩

theorem KeepsRest.within_obuf {ws : List Element} {s t : State} (h : KeepsRest .obuf s t)
    (h1 : Element.obuf ∈ ws) (h2 : Element.olen ∈ ws) : Within ws s t := by
  unfold KeepsRest at h; rw [h]; constructor <;> simp [setBuffer, h1, h2]

theorem KeepsRest.within_ibuf {ws : List Element} {s t : State} (h : KeepsRest .ibuf s t)
    (h1 : Element.ibuf ∈ ws) (h2 : Element.ilen ∈ ws) : Within ws s t := by
  unfold KeepsRest at h; rw [h]; constructor <;> simp [setBuffer, h1, h2]

/-- An error leaves what is outside the write set alone (R243). -/
theorem unspecify_within (ws : List Element) (s : State) : Within ws s (unspecify ws s) := by
  constructor <;> simp [inSet, unspecIlen, unspecIcur, unspecOlen] <;> intro h <;> simp [h]

theorem inflateLoop_keepsRest (n : Nat) (t : List Byte) (s : State) :
    KeepsRest .obuf s (inflateLoop n t s).state := by
  induction n generalizing t s with
  | zero => exact .refl _ s
  | succ n ih =>
    cases t with
    | nil => exact .refl _ s
    | cons c t =>
      simp only [inflateLoop]
      split
      · split
        · exact .refl _ s
        · exact Work.keepsRest_andThen (backref_keepsRest _ _ s) (ih _)
      · exact Work.keepsRest_andThen (append_keepsRest _ _ s) (ih t)

theorem Work.within_andThen {ws : List Element} {s : State} {w : Work} {k : State → Work}
    (h : Within ws s w.state) (hk : ∀ t, Within ws t (k t).state) : Within ws s (w.andThen k).state := by
  cases w with
  | done t => exact h.trans (hk t)
  | raised e t => exact h

/-- A command's work changes nothing outside its write set, CLEAR's error fields apart (R89). -/
theorem workOf_within (i : Instr) (s : State) (hi : i ≠ .clear) : Within (writeSet i) s (workOf i s).state := by
  have hcur : ∀ ws : List Element, Element.icur ∈ ws → ∀ t, Within ws t (Work.done (cursorToEnd t)).state := by
    intro ws h t; constructor <;> simp [cursorToEnd, h]
  have hread : ∀ (p : Parsed Word), Within [.value, .icur] s (readToValue p s).state := by
    intro p; cases p
    · constructor <;> simp [readToValue, cursorAt]
    · exact .refl _ s
  cases i with
  | clear => exact absurd rfl hi
  | iappend => exact (append_keepsRest _ _ s).within_ibuf (by decide) (by decide)
  | oappend => exact (append_keepsRest _ _ s).within_obuf (by decide) (by decide)
  | peek => constructor <;> simp [workOf, writeSet]
  | consume => exact hread _
  | atend => constructor <;> simp [workOf, writeSet]
  | expand => exact (backref_keepsRest _ _ s).within_obuf (by decide) (by decide)
  | xfer => constructor <;> simp [workOf, writeSet]
  | venc =>
    simp only [workOf]
    split
    · exact .refl _ s
    · exact (appendText_keepsRest _ _ s).within_obuf (by decide) (by decide)
  | vdec => exact hread _
  | deflate =>
    simp only [workOf]
    split
    · exact .refl _ s
    · exact Work.within_andThen ((appendText_keepsRest _ _ s).within_obuf (by decide) (by decide))
        (hcur _ (by decide))
  | inflate =>
    simp only [workOf]
    split
    · exact .refl _ s
    · exact Work.within_andThen ((inflateLoop_keepsRest _ _ s).within_obuf (by decide) (by decide))
        (hcur _ (by decide))

end Sys2Proof.Machine
end

