-- ==== Sys2Proof/Laws/Step.lean ====
section
/-! SUPPORT. What a step can do, said once. -/

namespace Sys2Proof.Machine

/-- Where the engine moves next, the step performs the latched word. -/
theorem step_engine (s : State) (h : engineNext s) : step s = runCommand s := by
  obtain ⟨h1, h2, h3⟩ := h
  unfold step nextEvent engineTurn
  rw [if_pos h1, h2]
  rcases h3 with h3 | h3 <;> simp [h3]

/-- Where the host moves next, the step makes its event. -/
theorem step_host (s : State) (e : HostEvent) (rest : List HostEvent) (h : hostNext s e rest) :
    step s = hostEvent e (takeEvent rest s) := by
  obtain ⟨h1, h2, h3⟩ := h
  unfold step nextEvent engineTurn hostTurn
  rw [if_pos h1, h2]
  rcases h3 with h3 | h3
  · simp [h3]
  · have : s.wait ≠ 0 := by omega
    simp [this]

/-- Everything a step that answers a next state can be. -/
theorem step_cases (s t : State) (h : step s = .next t) :
    statusLegal s = true ∧
      ((engineNext s ∧ runCommand s = .next t) ∨
       (s.host = [] ∧ s.busy = false ∧ t = s) ∨
       (∃ e rest, hostNext s e rest ∧ hostEvent e (takeEvent rest s) = .next t)) := by
  unfold step nextEvent at h
  split at h
  · rename_i hl
    refine ⟨hl, ?_⟩
    split at h
    · rename_i he
      simp only [engineTurn, Bool.and_eq_true, Bool.or_eq_true, decide_eq_true_eq, List.isEmpty_iff] at he
      exact .inl ⟨⟨hl, he.1, he.2⟩, h⟩
    · rename_i he
      simp only [engineTurn, Bool.and_eq_true, Bool.or_eq_true, decide_eq_true_eq, List.isEmpty_iff] at he
      unfold hostTurn at h
      split at h
      · rename_i hh
        cases h
        exact .inr (.inl ⟨hh, by simpa [hh] using he, rfl⟩)
      · rename_i e rest hh
        refine .inr (.inr ⟨e, rest, ⟨hl, hh, ?_⟩, h⟩)
        simp only [hh, reduceCtorEq, or_false] at he
        cases hb : s.busy
        · exact .inl rfl
        · exact .inr (by simp only [hb, true_and] at he; omega)
  · cases h

/-- An access of the agent being served, or of the first, goes on. -/
theorem admit_admitted (agent : Nat) (k : State → Result) (s : State) (h : admitted s agent) :
    admitAgent agent k s = k (serve (some agent) s) := by
  unfold admitAgent
  rcases h with h | h
  · rw [h]
  · rw [h]
    have : serve (some agent) s = s := by unfold serve; rw [← h]
    simp [this]

/-- What an access that answers a next state can be. -/
theorem admit_next (agent : Nat) (k : State → Result) (s t : State) (h : admitAgent agent k s = .next t) :
    admitted s agent ∧ k (serve (some agent) s) = .next t := by
  have hadm : admitted s agent := by
    unfold admitAgent at h
    split at h
    · rename_i hn; exact .inl hn
    · rename_i a hn
      split at h
      · rename_i ha; exact .inr (by rw [hn, ha])
      · cases h
  exact ⟨hadm, by rwa [admit_admitted agent k s hadm] at h⟩

/-- The STATUS pair is legal whatever the rest of the state. -/
theorem statusLegal_congr {s t : State} (h1 : t.err = s.err) (h2 : t.ecode = s.ecode) (h3 : t.cause = s.cause) :
    statusLegal t = statusLegal s := by simp only [statusLegal, h1, h2, h3]

theorem statusLegal_recordError (e : Err) (s : State) : statusLegal (recordError e s) = true := by
  cases e <;> rfl

theorem statusLegal_clearError (s : State) : statusLegal (clearError s) = true := rfl

end Sys2Proof.Machine
end

