-- ==== Sys2Proof/Laws/Access.lean ====
section
/-! SUPPORT. What a legal access of the block does, and what the register block's addresses decode to. -/

namespace Sys2Proof.Machine

theorem reg_region (addr : Addr) (h : addr.toNat < 0x40) : regionOf addr = .registers addr.toNat := by
  unfold regionOf; rw [if_pos h]

/-- An aligned 4-byte read of the register block gets no bus error. -/
theorem reg_noerr_read (addr : Addr) (h : addr.toNat < 0x40) (h4 : addr.toNat % 4 = 0) : busErrorOf (.read addr 4) = none := by
  simp [busErrorOf, reg_region addr h, h4]

/-- An aligned 4-byte write of the register block gets no bus error. -/
theorem reg_noerr_write (addr : Addr) (v) (h : addr.toNat < 0x40) (h4 : addr.toNat % 4 = 0) : busErrorOf (.write addr 4 v) = none := by
  simp [busErrorOf, reg_region addr h, h4]

/-- A read without a bus error, as a step. -/
theorem access_read (s ag addr w rest) (ha : admitted s ag) (h : hostNext s (.access ag (.read addr w)) rest) (hb : busErrorOf (.read addr w) = none) :
    step s = .next (pushReply (readAt addr (serve (some ag) (takeEvent rest s))) (drawnRead (serve (some ag) (takeEvent rest s)))) := by
  rw [step_host _ _ _ h]
  simp only [hostEvent]
  rw [admit_admitted _ _ _ (show admitted (takeEvent rest s) _ from ha), busAccess, hb]

/-- A write without a bus error, as a step. -/
theorem access_write (s ag addr w v rest) (ha : admitted s ag) (h : hostNext s (.access ag (.write addr w v)) rest) (hb : busErrorOf (.write addr w v) = none) :
    step s = .next (writeAt addr v (serve (some ag) (takeEvent rest s))) := by
  rw [step_host _ _ _ h]
  simp only [hostEvent]
  rw [admit_admitted _ _ _ (show admitted (takeEvent rest s) _ from ha), busAccess, hb]

/-- The number a STATUS read gives. -/
theorem statusWord_toNat (s : State) : (statusWord s).toNat = s.cause.toNat * 256 + s.ecode.toNat * 16 + (if s.err then 2 else 0) + (if s.busy then 1 else 0) := by
  have key : ∀ (c e : BitVec 4) (b1 b0 : Bool), ((c.setWidth 32 <<< 8) ||| (e.setWidth 32 <<< 4) ||| ((BitVec.ofBool b1).setWidth 32 <<< 1) ||| (BitVec.ofBool b0).setWidth 32 : Word).toNat = c.toNat * 256 + e.toNat * 16 + (if b1 then 2 else 0) + (if b0 then 1 else 0) := by
    decide
  exact key _ _ _ _

/-- The number a length read gives. -/
theorem zextLength_toNat (n : Nat) : (zextLength n).toNat = n % 33554432 := by
  simp only [zextLength, BitVec.toNat_setWidth, BitVec.toNat_ofNat]; omega

/-- Where no error stands, or the word is CLEAR's, how long the command takes is free. -/
theorem waitOf_performed (w : Word) (s : State) (h : s.err = false ∨ w = encode .clear) :
    waitOf w s = Config.latency s.draws := by
  rcases h with h | h <;> simp [waitOf, ignoredWord, h]

/-- While an error stands any word but CLEAR's lets no access pass. -/
theorem waitOf_ignored (w : Word) (s : State) (h : s.err = true) (hw : w ≠ encode .clear) : waitOf w s = 0 := by
  simp [waitOf, ignoredWord, h, hw]

end Sys2Proof.Machine
end

