-- ==== Sys2Proof/Laws/Codec.lean ====
section
/-! SUPPORT. What the digits, the tokens and the readers of tokens make of each other. -/

namespace Sys2Proof.Machine

/-- A digit is a digit of its value, and neither a TIER nor a LONG character. -/
theorem isDigit_digit (v : Nat) (h : v < 64) : isDigit (digit v) = true ∧ digval (digit v) = v ∧ isTier (digit v) = false ∧ longDigits (digit v) = 0 := by
  have : ∀ v : Fin 64, isDigit (digit v.val) = true ∧ digval (digit v.val) = v.val ∧ isTier (digit v.val) = false ∧ longDigits (digit v.val) = 0 := by decide
  exact this ⟨v, h⟩

/-- Reading a digit that was written. -/
theorem nextDigits_digit (n v w : Nat) (t : List Byte) (h : w < 64) :
    nextDigits (n+1) v (digit w :: t) = nextDigits n (v * 64 + w) t := by
  rw [nextDigits, nextDigit_cons, if_pos (isDigit_digit w h).1]
  simp [(isDigit_digit w h).2.1]

/-- A text of two parts: the second stands after the first. -/
theorem slice_split (m : Memory) (a n : Nat) (x y : List Byte) (h : m.slice a n = x ++ y) :
    m.slice (a + x.length) (n - x.length) = y := by
  induction x generalizing a n with
  | nil => exact h
  | cons c x ih =>
    cases n with
    | zero => cases h
    | succ n =>
      rw [Memory.slice, List.cons_append] at h
      have := ih (a+1) n (List.cons.inj h).2
      rw [← this]; simp; congr 1; omega

/-- The characters of a token are kept characters. -/
theorem keep_tokenOf (m : Match) : ∀ c ∈ tokenOf m, keep c = true := by
  unfold tokenOf
  split
  · intro c hc
    simp only [List.mem_cons, List.mem_append] at hc
    rcases hc with rfl | hc | hc
    · decide
    · exact keep_encodeValue _ c hc
    · exact keep_encodeValue _ c hc
  · intro c hc
    simp only [List.mem_cons] at hc
    rcases hc with rfl | rfl | rfl | hc
    · decide
    · exact keep_digit _
    · exact keep_digit _
    · exact keep_encodeValue _ c hc

/-- The compressor writes kept characters when it reads them. -/
theorem keep_deflateFrom (s : List Byte) (hs : ∀ c ∈ s, keep c = true) (n i : Nat) : ∀ c ∈ deflateFrom s n i, keep c = true := by
  induction n generalizing i with
  | zero => intro c hc; exact hs c (List.mem_of_mem_drop hc)
  | succ n ih =>
    rw [deflateFrom]
    split
    · rename_i h
      split
      · intro c hc
        simp only [List.mem_cons] at hc
        rcases hc with rfl | hc
        · rw [List.getD_eq_getElem _ _ (by omega)]; exact hs _ (List.getElem_mem _)
        · exact ih _ c hc
      · intro c hc
        simp only [List.mem_append] at hc
        rcases hc with hc | hc
        · exact keep_tokenOf _ c hc
        · exact ih _ c hc
    · intro c hc; exact hs c (List.mem_of_mem_drop hc)

/-- The unread characters are characters of the input text. -/
theorem unread_sub (s : State) (h : s.icur ≤ s.ilen) : ∀ c ∈ unread s, c ∈ textOf .ibuf s := by
  intro c hc
  obtain ⟨k, hk, rfl⟩ := (Memory.mem_slice _ _ _ _).1 hc
  exact (Memory.mem_slice _ _ _ _).2 ⟨s.icur + k, by simp [lengthOf]; omega, by simp [cellsOf]⟩

theorem wholeValue_some {t : List Byte} {v : Nat} (h : wholeValue t = some v) : decodeValue t = .ok v [] := by
  unfold wholeValue at h
  split at h
  · rename_i h'; cases h; exact h'
  · cases h
  · cases h

/-- A far token whose length is one whole value reads as its two digits and that length. -/
theorem readFar_text (d1 d0 : Byte) (lt more : List Byte) (l : Nat) (h1 : isDigit d1 = true) (h0 : isDigit d0 = true)
    (hl : decodeValue lt = .ok l []) : readFar (d1 :: d0 :: (lt ++ more)) = .ok ⟨digval d1 * 64 + digval d0, l⟩ more := by
  have := decodeValue_append more hl
  unfold readFar readLength
  rw [nextDigits, nextDigit_cons, if_pos h1]
  simp only
  rw [nextDigits, nextDigit_cons, if_pos h0]
  simp only [nextDigits, this, List.nil_append, Nat.zero_mul, Nat.zero_add]

/-- A near token of two whole values reads as those. -/
theorem readNear_text (dt lt more : List Byte) (d l : Nat) (hd : decodeValue dt = .ok d [])
    (hl : decodeValue lt = .ok l []) : readNear (dt ++ lt ++ more) = .ok ⟨d, l⟩ more := by
  have h1 := decodeValue_append (lt ++ more) hd
  have h2 := decodeValue_append more hl
  unfold readNear readLength
  rw [List.append_assoc, h1]
  simp only [List.nil_append, h2]

/-- Reading one digit of a number. -/
theorem nextDigits_cons (n v : Nat) (d : Byte) (t : List Byte) (h : isDigit d = true) :
    nextDigits (n + 1) v (d :: t) = nextDigits n (v * 64 + digval d) t := by
  rw [nextDigits, nextDigit_cons, if_pos h]

/-- Fewer digits than a number needs: cut off where the text ends, no number where another character stands. -/
theorem nextDigits_short (ds : List Byte) (n v : Nat) (hn : ds.length < n) (hd : ∀ d ∈ ds, isDigit d = true) :
    nextDigits n v ds = .bad .truncated ∧
    ∀ x rest, isDigit x = false → nextDigits n v (ds ++ x :: rest) = .bad .invalidNumeric := by
  induction ds generalizing n v with
  | nil =>
    obtain ⟨n, rfl⟩ : ∃ n', n = n' + 1 := ⟨n - 1, by simp at hn; omega⟩
    refine ⟨by rw [nextDigits, nextDigit_nil], fun x rest hx => ?_⟩
    rw [List.nil_append, nextDigits, nextDigit_cons, if_neg (by simp [hx])]
  | cons d ds ih =>
    obtain ⟨n, rfl⟩ : ∃ n', n = n' + 1 := ⟨n - 1, by simp at hn; omega⟩
    have := ih n (v * 64 + digval d) (by simpa using hn) (fun x hx => hd x (.tail _ hx))
    rw [nextDigits_cons _ _ _ _ (hd d (.head _))]
    refine ⟨this.1, fun x rest hx => ?_⟩
    rw [List.cons_append, nextDigits_cons _ _ _ _ (hd d (.head _))]
    exact this.2 x rest hx

/-- The compressor's output does not depend on the fuel once that is enough. -/
theorem deflateFrom_fuel (s : List Byte) (n m i : Nat) (hn : s.length - i ≤ n) (hm : s.length - i ≤ m) :
    deflateFrom s n i = deflateFrom s m i := by
  have tail : ∀ n i, ¬ i + 4 ≤ s.length → deflateFrom s n i = s.drop i := by
    intro n i h
    cases n with
    | zero => rfl
    | succ n => rw [deflateFrom, if_neg h]
  induction n generalizing m i with
  | zero => rw [tail _ _ (by omega), tail _ _ (by omega)]
  | succ n ih =>
    by_cases h4 : i + 4 ≤ s.length
    · obtain ⟨m, rfl⟩ : ∃ m', m = m' + 1 := ⟨m - 1, by omega⟩
      rw [deflateFrom, deflateFrom, if_pos h4, if_pos h4]
      by_cases hl : isLiteral (bestMatch s i) = true
      · rw [if_pos hl, if_pos hl, ih m (i + 1) (by omega) (by omega)]
      · have : (bestMatch s i).len ≠ 0 := by intro h; simp [isLiteral, h] at hl
        rw [if_neg hl, if_neg hl, ih m (i + (bestMatch s i).len) (by omega) (by omega)]
    · rw [tail _ _ h4, tail _ _ h4]

end Sys2Proof.Machine
end

