-- ==== Sys2Proof/Laws/Copy.lean ====
section
/-! SUPPORT. What the loops over the append can do: what they keep, what they raise, which cells they store, and the text an expansion leaves. -/

namespace Sys2Proof.Machine

/-- A property of the first part's end that the second part keeps holds at the end. -/
theorem andThen_P {P : State → Prop} {w k} (h : P (Work.state w)) (hk : ∀ t, P t → P (k t).state) : P (Work.andThen w k).state := by
  cases w with
  | done t => exact hk t h
  | raised e t => exact h

/-- What one append keeps, appending a text keeps. -/
theorem appendText_P {P : State → Prop} (b) (hP : ∀ c s, P s → P (append b c s).state) (x) (s) (h : P s) : P (appendText b x s).state := by
  induction x generalizing s with
  | nil => exact h
  | cons c x ih => exact andThen_P (hP c s h) ih

/-- What one append keeps, an expansion keeps. -/
theorem expand_P {P : State → Prop} (hP : ∀ c s, P s → P (append .obuf c s).state) (d l s) (h : P s) : P (expand d l s).state := by
  induction l generalizing s with
  | zero => exact h
  | succ l ih => exact andThen_P (hP _ s h) ih

/-- What one append keeps, a back-reference keeps. -/
theorem backref_P {P : State → Prop} (hP : ∀ c s, P s → P (append .obuf c s).state) (d l s) (h : P s) : P (backref d l s).state := by
  unfold backref; split
  · exact h
  · split
    · exact h
    · exact expand_P hP d l s h

/-- What one append keeps, the decompressor keeps. -/
theorem inflateLoop_P {P : State → Prop} (hP : ∀ c s, P s → P (append .obuf c s).state) (n x s) (h : P s) : P (inflateLoop n x s).state := by
  induction n generalizing x s with
  | zero => exact h
  | succ n ih =>
    cases x with
    | nil => exact h
    | cons c x =>
      simp only [inflateLoop]
      split
      · split
        · exact h
        · exact andThen_P (backref_P hP _ _ s h) (ih _)
      · exact andThen_P (hP _ s h) (ih _)

/-- Without allocation failures an append raises FORMAT_TOO_LONG only. -/
theorem append_err (b c s e u) (ha : s.allocMayFail = false) (h : append b c s = .raised e u) : e = .tooLong := by
  rcases append_cases b c s with ⟨_, h'⟩ | ⟨_, _, h'⟩ | ⟨_, _, hr, h'⟩ | ⟨_, _, _, h'⟩ <;> rw [h'] at h <;> cases h
  · rfl
  · simp [allocRefused, ha] at hr

theorem append_alloc (b c s u) (h : append b c s = .done u) : u.allocMayFail = s.allocMayFail := by
  have := append_keepsRest b c s
  rw [h] at this; exact this.fields.2.2.2.2.2.2.2.2.2.2.1

theorem backref_alloc (d l s u) (h : backref d l s = .done u) : u.allocMayFail = s.allocMayFail := by
  have := backref_keepsRest d l s
  rw [h] at this; exact this.fields.2.2.2.2.2.2.2.2.2.2.1

/-- Without allocation failures appending a text raises FORMAT_TOO_LONG only. -/
theorem appendText_err (b x s e u) (ha : s.allocMayFail = false) (h : appendText b x s = .raised e u) : e = .tooLong := by
  induction x generalizing s with
  | nil => cases h
  | cons c x ih =>
    rcases (Work.andThen_eq_raised _ _ _ _).1 h with h | ⟨v, hv, h⟩
    · exact append_err _ _ _ _ _ ha h
    · exact ih v (by rw [append_alloc _ _ _ _ hv, ha]) h

/-- Without allocation failures an expansion raises FORMAT_TOO_LONG only. -/
theorem expand_err (d l s e u) (ha : s.allocMayFail = false) (h : expand d l s = .raised e u) : e = .tooLong := by
  induction l generalizing s with
  | zero => cases h
  | succ l ih =>
    rcases (Work.andThen_eq_raised _ _ _ _).1 h with h | ⟨v, hv, h⟩
    · exact append_err _ _ _ _ _ ha h
    · exact ih v (by rw [append_alloc _ _ _ _ hv, ha]) h

/-- What a back-reference raises. -/
theorem backref_err (d l s e u) (ha : s.allocMayFail = false) (h : backref d l s = .raised e u) : e = .invalidBackref ∨ e = .tooLong := by
  unfold backref at h
  split at h
  · cases h; exact .inl rfl
  · split at h
    · cases h; exact .inr rfl
    · exact .inr (expand_err _ _ _ _ _ ha h)

/-- What reading a token's length raises. -/
theorem readLength_bad (p : Parsed Nat) (hp : ∀ e', p = .bad e' → e' = .truncated ∨ e' = .invalidNumeric) (e') (hh : readLength p = .bad e') : e' = .truncated ∨ e' = .invalidNumeric := by
  unfold readLength at hh
  split at hh
  · rename_i e2; cases hh; exact hp e' rfl
  · split at hh
    · rename_i h2; cases hh; exact decodeValue_bad h2
    · cases hh

/-- What the decompressor raises. -/
theorem inflateLoop_err (n x s e u) (ha : s.allocMayFail = false) (h : inflateLoop n x s = .raised e u) :
    e = .invalidNumeric ∨ e = .invalidBackref ∨ e = .truncated ∨ e = .tooLong := by
  induction n generalizing x s with
  | zero => cases h
  | succ n ih =>
    cases x with
    | nil => cases h
    | cons c x =>
      simp only [inflateLoop] at h
      split at h
      · split at h
        · rename_i e' hb
          cases h
          split at hb
          · have := readLength_bad _ (fun e' h => decodeValue_bad h) _ hb; tauto
          · have := readLength_bad _ (fun e' h => nextDigits_bad h) _ hb; tauto
        · rcases (Work.andThen_eq_raised _ _ _ _).1 h with h | ⟨v, hv, h⟩
          · have := backref_err _ _ _ _ _ ha h; tauto
          · exact ih _ v (by rw [backref_alloc _ _ _ _ hv, ha]) h
      · rcases (Work.andThen_eq_raised _ _ _ _).1 h with h | ⟨v, hv, h⟩
        · have := append_err _ _ _ _ _ ha h; tauto
        · exact ih _ v (by rw [append_alloc _ _ _ _ hv, ha]) h

/-- A done append stores into the cell it adds only. -/
theorem append_cells (b : Buffer) (c : Byte) (s t : State) (h : append b c s = .done t) :
    sameCellsOutside (cellsOf b s) (cellsOf b t) (lengthOf b s) (lengthOf b t) ∧ lengthOf b s ≤ lengthOf b t := by
  rcases append_cases b c s with ⟨_, h'⟩ | ⟨_, _, h'⟩ | ⟨_, _, _, h'⟩ | ⟨_, _, _, h'⟩ <;> rw [h] at h' <;> cases h'
  · exact ⟨fun _ _ => rfl, Nat.le_refl _⟩
  · refine ⟨fun a ha => ?_, by simp⟩
    simp only [cellsOf_storeChar, lengthOf_storeChar, cellsOf_allocAsked, lengthOf_allocAsked] at ha ⊢
    exact Memory.read_write_ne _ _ _ _ (by omega)

/-- From `s` to `t` the buffer grows, and only the cells it grew by may read otherwise. -/
def CellsGrow (b : Buffer) (s t : State) : Prop :=
  sameCellsOutside (cellsOf b s) (cellsOf b t) (lengthOf b s) (lengthOf b t) ∧ lengthOf b s ≤ lengthOf b t

theorem CellsGrow.refl (b s) : CellsGrow b s s := ⟨fun _ _ => rfl, Nat.le_refl _⟩

theorem CellsGrow.trans {b s t u} (h : CellsGrow b s t) (k : CellsGrow b t u) : CellsGrow b s u :=
  ⟨fun a ha => by rw [k.1 a (by have := h.2; have := k.2; omega), h.1 a (by have := h.2; have := k.2; omega)], h.2.trans k.2⟩

theorem andThen_grow {b s w k t} (h : Work.andThen w k = .done t) (hw : ∀ u, w = .done u → CellsGrow b s u)
    (hk : ∀ u, k u = .done t → CellsGrow b u t) : CellsGrow b s t := by
  obtain ⟨u, h1, h2⟩ := (Work.andThen_eq_done _ _ _).1 h
  exact (hw u h1).trans (hk u h2)

/-- Appending a text stores into new cells only. -/
theorem appendText_grow (b : Buffer) (x) (s t : State) (h : appendText b x s = .done t) : CellsGrow b s t := by
  induction x generalizing s with
  | nil => cases h; exact .refl _ _
  | cons c x ih => exact andThen_grow h (fun u hu => append_cells b c s u hu) (fun u hu => ih u hu)

/-- An expansion stores into new cells only. -/
theorem expand_grow (d l) (s t : State) (h : expand d l s = .done t) : CellsGrow .obuf s t := by
  induction l generalizing s with
  | zero => cases h; exact .refl _ _
  | succ l ih => exact andThen_grow h (fun u hu => append_cells _ _ s u hu) (fun u hu => ih u hu)

/-- A back-reference stores into new cells only. -/
theorem backref_grow (d l) (s t : State) (h : backref d l s = .done t) : CellsGrow .obuf s t := by
  unfold backref at h
  split at h
  · cases h
  · split at h
    · cases h
    · exact expand_grow d l s t h

/-- The decompressor stores into new cells only. -/
theorem inflateLoop_grow (n x) (s t : State) (h : inflateLoop n x s = .done t) : CellsGrow .obuf s t := by
  induction n generalizing x s with
  | zero => cases h; exact .refl _ _
  | succ n ih =>
    cases x with
    | nil => cases h; exact .refl _ _
    | cons c x =>
      simp only [inflateLoop] at h
      split at h
      · split at h
        · cases h
        · exact andThen_grow h (fun u hu => backref_grow _ _ s u hu) (fun u hu => ih _ u hu)
      · exact andThen_grow h (fun u hu => append_cells _ _ s u hu) (fun u hu => ih _ u hu)

/-- A valid expansion that fits is done, each new cell reading as the one `d` before it. -/
theorem expand_ok (d l : Nat) (s : State) (hk : ∀ c ∈ textOf .obuf s, keep c = true) (hd : 1 ≤ d) (hdl : d ≤ s.olen)
    (hl : s.olen + l ≤ Config.cap) (ha : s.allocMayFail = false) :
    ∃ t, expand d l s = .done t ∧ t.olen = s.olen + l ∧ KeepsRest .obuf s t ∧ t.draws = s.draws ∧
      (∀ k, k < l → t.obuf.read (s.olen + k) = t.obuf.read (s.olen - d + k)) ∧
      sameCellsOutside s.obuf t.obuf s.olen (s.olen + l) ∧ (∀ c ∈ textOf .obuf t, keep c = true) := by
  induction l generalizing s with
  | zero => exact ⟨s, rfl, rfl, .refl _ s, rfl, by simp, fun _ _ => rfl, hk⟩
  | succ l ih =>
    have hc : keep (s.obuf.read (s.olen - d)) = true :=
      hk _ ((Memory.mem_slice _ _ _ _).2 ⟨s.olen - d, by simp [lengthOf]; omega, by simp [cellsOf]⟩)
    have happ := append_kept .obuf (s.obuf.read (s.olen - d)) s hc (by simp [lengthOf]; omega) ha
    set s1 := storeChar .obuf (s.obuf.read (s.olen - d)) s with hs1
    have ho : s1.olen = s.olen + 1 := rfl
    have hob : s1.obuf = s.obuf.write s.olen (s.obuf.read (s.olen - d)) := rfl
    obtain ⟨t, h1, h2, h3, h4, h5, h6, h7⟩ := ih s1
      (by rw [hs1, textOf_storeChar _ _ _ (ne_zero_of_keep hc)]; intro c h; simp at h; rcases h with h | rfl; exact hk c h; exact hc)
      (by rw [ho]; omega) (by rw [ho]; omega) ha
    refine ⟨t, by rw [expand, happ, Work.andThen_done, h1], by rw [h2, ho]; omega, (KeepsRest.storeChar _ _ s).trans h3, h4, ?_, ?_, h7⟩
    · intro k hk'
      rw [ho] at h5 h6
      cases k with
      | zero =>
        rw [h6 (s.olen + 0) (by omega), h6 (s.olen - d + 0) (by omega), hob]
        rw [Nat.add_zero, Nat.add_zero, Memory.read_write_eq_of_ne _ _ _ (ne_zero_of_keep hc), Memory.read_write_ne _ _ _ _ (by omega)]
      | succ k =>
        have := h5 k (by omega)
        rw [show s.olen + (k + 1) = s.olen + 1 + k by omega, this]
        congr 1; omega
    · intro a h
      rw [ho] at h6
      rw [h6 a (by omega), hob, Memory.read_write_ne _ _ _ _ (by omega)]

/-- Cells that each read as the one `d` before them hold the text copied with period `d`. -/
theorem expand_text (d l : Nat) (s t : State) (h1 : 1 ≤ d) (h3 : d ≤ s.olen) (e2 : t.olen = s.olen + l)
    (e5 : ∀ k, k < l → t.obuf.read (s.olen + k) = t.obuf.read (s.olen - d + k))
    (e6 : sameCellsOutside s.obuf t.obuf s.olen (s.olen + l)) :
    textOf .obuf t = textOf .obuf s ++ copied (textOf .obuf s) d l := by
  have key : ∀ k, k < l → t.obuf.read (s.olen + k) = s.obuf.read (s.olen - d + k % d) := by
    intro k
    induction k using Nat.strong_induction_on with
    | _ k ih =>
      intro hk'
      rw [e5 k hk']
      by_cases hlt : k < d
      · rw [Nat.mod_eq_of_lt hlt, e6 _ (by omega)]
      · have := ih (k - d) (by omega) (by omega)
        rw [show s.olen - d + k = s.olen + (k - d) by omega, this, ← Nat.mod_eq_sub_mod (by omega)]
  show Memory.slice t.obuf 0 t.olen = Memory.slice s.obuf 0 s.olen ++ copied (Memory.slice s.obuf 0 s.olen) _ _
  apply List.ext_getElem
  · simp [copied, e2]
  · intro n hn1 hn2
    rw [Memory.slice_getElem]
    simp only [Memory.slice_length, e2] at hn1
    simp only [Nat.zero_add]
    by_cases hn : n < s.olen
    · rw [List.getElem_append_left (by simpa using hn), Memory.slice_getElem, e6 _ (by omega)]; simp
    · rw [List.getElem_append_right (by simp; omega)]
      simp only [copied, List.getElem_map, List.getElem_range, Memory.slice_length]
      have hm := Nat.mod_lt (n - s.olen) (show 0 < d by omega)
      have hkey := key (n - s.olen) (by omega)
      rw [show s.olen + (n - s.olen) = n by omega] at hkey
      rw [hkey, List.getD_eq_getElem _ _ (by simp; omega), Memory.slice_getElem]; simp

theorem inflateLoop_nil (f s) : inflateLoop f [] s = .done s := by cases f <;> rfl

end Sys2Proof.Machine
end

