-- ==== Sys2Proof/Laws/PerInstr.lean ====
section
/-! SUPPORT. Statements about every command as syntax, one lemma per constructor. -/

namespace Sys2Proof.Laws.CommandWord

/-- The command's word has the format of 30_encoding.md R86: a legal `OP`, the reserved bits 0; the command itself
is well formed. -/
def Statement (i : Instr) : Prop :=
  i.wellFormed = true ∧ 1 ≤ opField (encode i) ∧ opField (encode i) ≤ 12 ∧ reservedField (encode i) = 0

theorem clear : Statement .clear := by unfold Statement; decide
theorem iappend : Statement .iappend := by unfold Statement; decide
theorem oappend : Statement .oappend := by unfold Statement; decide
theorem peek : Statement .peek := by unfold Statement; decide
theorem consume : Statement .consume := by unfold Statement; decide
theorem atend : Statement .atend := by unfold Statement; decide
theorem expand : Statement .expand := by unfold Statement; decide
theorem xfer : Statement .xfer := by unfold Statement; decide
theorem venc : Statement .venc := by unfold Statement; decide
theorem vdec : Statement .vdec := by unfold Statement; decide
theorem deflate : Statement .deflate := by unfold Statement; decide
theorem inflate : Statement .inflate := by unfold Statement; decide

end Sys2Proof.Laws.CommandWord
end

