-- ==== Sys2Proof/Tests/Slice0.lean ====
section
/-! SUPPORT. Tests of one step each, with expected results from the spec's text and its vectors (95_test_vectors.md),
and for every statement with hypotheses a witness that meets them. -/

namespace Sys2Proof.Tests

open Sys2Proof.Machine

/-! Small states. -/

/-- A text from character codes. -/
def txt (t : List Nat) : List Byte := t.map chr

/-- The state with input text `i`, cursor `c` and output text `o`, all else as at reset. -/
def bufs (i : List Nat) (c : Nat) (o : List Nat) : State :=
  { State.reset with
    ibuf := Memory.storeText [] 0 (txt i), ilen := i.length, icur := c
    obuf := Memory.storeText [] 0 (txt o), olen := o.length }

/-- The state with these lengths and nothing in the cells. -/
def lengths (il ol : Nat) : State := { State.reset with ilen := il, olen := ol }

/-- The state with this error recorded. -/
def erred (e : Err) (s : State) : State := recordError e s

/-- An idle state whose host sends `e` next. -/
def sends (e : HostEvent) (s : State) : State := { s with host := [e] }

/-- A busy state holding the word `w`, which lets `n` host accesses pass, the host sending `e` next. -/
def busyWith (w : Word) (n : Nat) (e : HostEvent) (s : State) : State :=
  { s with busy := true, cmd := w, wait := n, host := [e] }

/-- A property of the next state. -/
def after {α : Type} (f : State → α) (r : Result) : Option α :=
  match r with
  | .next t => some (f t)
  | .fault _ => none
  | .refused _ => none

/-- `STATUS` as a number. -/
def status (s : State) : Nat := (statusWord s).toNat

/-- The output text as codes. -/
def out (s : State) : List Nat := (textOf .obuf s).map BitVec.toNat

/-- The input text as codes, with the cursor. -/
def inp (s : State) : List Nat × Nat := ((textOf .ibuf s).map BitVec.toNat, s.icur)

/-- The STATUS a command leaves, where it starts without an error, without allocation failures and with a length a
buffer can have. -/
def raises (i : Instr) (s : State) : Option Nat :=
  if s.err = false ∧ s.allocMayFail = false ∧ s.ilen ≤ Config.cap then after status (exec i s) else none

/-! Well-formedness: one ill-formed word per check. -/

/-- R86, R88: `OP` 0 fails the opcode check. -/
theorem test_wf_op_zero : opLegal 0x00000000#32 = false ∧ wordWellFormed 0x00000000#32 = false := by decide
/-- R86, R88: `OP` 0xD fails the opcode check. -/
theorem test_wf_op_high : opLegal 0x0000000D#32 = false ∧ wordWellFormed 0x0000000D#32 = false := by decide
/-- R86, R88: bit 4 set fails the reserved-bits check alone. -/
theorem test_wf_reserved :
    opLegal 0x00000019#32 = true ∧ reservedClear 0x00000019#32 = false ∧ wordWellFormed 0x00000019#32 = false := by
  decide
/-- R86: a word of the format passes both. -/
theorem test_wf_good : wordWellFormed 0x0000000C#32 = true := by decide

/-! Decoding: words written out from R86 and R87, bit by bit, most significant first. -/

/-- The buffer commands' words. -/
theorem test_decode_buffer :
    decodeWord 0b00000000000000000000000000000001#32 = .command .clear ∧
    decodeWord 0b00000000000000000000000000000010#32 = .command .iappend ∧
    decodeWord 0b00000000000000000000000000000011#32 = .command .oappend ∧
    decodeWord 0b00000000000000000000000000000100#32 = .command .peek ∧
    decodeWord 0b00000000000000000000000000000101#32 = .command .consume ∧
    decodeWord 0b00000000000000000000000000000110#32 = .command .atend ∧
    decodeWord 0b00000000000000000000000000000111#32 = .command .expand ∧
    decodeWord 0b00000000000000000000000000001000#32 = .command .xfer := by decide
/-- The codec commands' words. -/
theorem test_decode_codec :
    decodeWord 0b00000000000000000000000000001001#32 = .command .venc ∧
    decodeWord 0b00000000000000000000000000001010#32 = .command .vdec ∧
    decodeWord 0b00000000000000000000000000001011#32 = .command .deflate ∧
    decodeWord 0b00000000000000000000000000001100#32 = .command .inflate := by decide
/-- C1, C2, C4: reserved opcodes, reported before reserved bits. -/
theorem test_decode_reserved_opcode :
    decodeWord 0x00000000#32 = .illegal .reservedOpcode ∧ decodeWord 0x0000000D#32 = .illegal .reservedOpcode ∧
    decodeWord 0x0000000E#32 = .illegal .reservedOpcode ∧ decodeWord 0x0000000F#32 = .illegal .reservedOpcode ∧
    decodeWord 0x00000010#32 = .illegal .reservedOpcode := by decide
/-- C3, C5: reserved bits. -/
theorem test_decode_reserved_bits :
    decodeWord 0x00000019#32 = .illegal .reservedBits ∧ decodeWord 0x80000001#32 = .illegal .reservedBits := by decide
/-- The table's numbering is the word's. -/
theorem test_decode_table :
    decodeTableWord 32 0x9 = some .venc ∧ decodeTableWord 32 0x19 = none ∧ decodeTableWord 8 0xB = some .deflate := by
  decide

/-! One step. -/

/-- A word placed right after reset runs: VENC of 0 writes `'0'` (V1). -/
theorem test_step_after_reset :
    after out (step (State.reset.withFetchWord 32 0x9)) = some [0x30] := by decide
/-- C1 to C5 as steps: the STATUS each illegal word leaves. -/
theorem test_step_illegal :
    after status (step (State.reset.withFetchWord 32 0x0)) = some 0x142 ∧
    after status (step (State.reset.withFetchWord 32 0xD)) = some 0x142 ∧
    after status (step (State.reset.withFetchWord 32 0x19)) = some 0x242 ∧
    after status (step (State.reset.withFetchWord 32 0x10)) = some 0x142 ∧
    after status (step (State.reset.withFetchWord 32 0x80000001)) = some 0x242 := by decide
/-- C6, C9: with an error, 0x8000_0001 changes nothing and 0x0000_0001 clears. -/
theorem test_step_sticky :
    after status (step ((erred .reservedOpcode State.reset).withFetchWord 32 0x80000001)) = some 0x142 ∧
    after status (step ((erred .reservedOpcode State.reset).withFetchWord 32 0x1)) = some 0 := by decide
/-- R244, P3: while an error stands a VENC word is completed at once, a CLEAR word takes its time. -/
theorem test_bus_ignored_word :
    after State.wait (step (sends (.access 0 (.write 0x00#26 4 0x9#32)) (erred .invalidBackref State.reset))) =
      some 0 ∧
    waitOf 0x1#32 (erred .invalidBackref State.reset) = Config.latency 0 := ⟨by decide, rfl⟩
/-- R242, 93: STATUS codes the block never produces are refused. -/
theorem test_step_reserved_status :
    step { State.reset with err := true, ecode := 6#4 } = .refused .reservedErrorCode := rfl

/-! The commands, with the vectors of 95_test_vectors.md. -/

/-- L1. -/
theorem test_clear_error :
    after (fun t => (t.ilen, t.icur, t.olen, status t, t.value))
      (exec .clear (erred .invalidBackref { lengths 5 7 with icur := 2, value := 9#32 })) =
    some (0, 0, 0, 0, 9#32) := by decide
/-- X7: `'a'`, a newline discarded. -/
theorem test_iappend_kept :
    after inp (exec .iappend { bufs [] 0 [] with value := 0x161#32 }) = some ([0x61], 0) ∧
    after inp (exec .iappend { bufs [0x61] 0 [] with value := 0x0A#32 }) = some ([0x61], 0) := by decide
/-- X6: the ceiling, and a discarded character at it. -/
theorem test_iappend_ceiling :
    after (fun t => (t.ilen, status t)) (exec .iappend { lengths 16777215 0 with value := 0x61#32 }) =
      some (16777216, 0) ∧
    after status (exec .iappend { lengths 16777216 0 with value := 0x61#32 }) = some 0x32 ∧
    after (fun t => (t.ilen, status t)) (exec .iappend { lengths 16777216 0 with value := 0x20#32 }) =
      some (16777216, 0) := by decide
/-- R143: `']'` is discarded, `'^'` kept. -/
theorem test_oappend_filter :
    after out (exec .oappend { bufs [] 0 [0x61] with value := 0x5D#32 }) = some [0x61] ∧
    after out (exec .oappend { bufs [] 0 [0x61] with value := 0x5E#32 }) = some [0x61, 0x5E] := by decide
/-- R140: the output's ceiling. -/
theorem test_oappend_ceiling :
    after status (exec .oappend { lengths 0 16777216 with value := 0x62#32 }) = some 0x32 := by decide
/-- K1 to K3. -/
theorem test_peek :
    after (fun t => (t.value, t.icur)) (exec .peek (bufs [0x61, 0x3F] 0 [])) = some (0x61#32, 0) ∧
    after (fun t => (t.value, t.icur)) (exec .peek { bufs [0x61, 0x3F] 2 [] with value := 7#32 }) =
      some (0#32, 2) := by decide
/-- K4 to K6. -/
theorem test_consume :
    after (fun t => (t.value, t.icur)) (exec .consume (bufs [0x61, 0x3F] 1 [])) = some (0x3F#32, 2) ∧
    after status (exec .consume (bufs [0x61, 0x3F] 2 [])) = some 0x322 := by decide
/-- K7 to K9. -/
theorem test_atend :
    after State.value (exec .atend (bufs [0x61, 0x3F] 1 [])) = some 0#32 ∧
    after State.value (exec .atend (bufs [0x61, 0x3F] 2 [])) = some 1#32 ∧
    after State.value (exec .atend State.reset) = some 1#32 := by decide
/-- E1: the copy reads what it wrote. -/
theorem test_expand_overlap :
    after out (exec .expand { bufs [] 0 [0x61, 0x62] with dist := 2#32, len := 5#32 }) =
    some [0x61, 0x62, 0x61, 0x62, 0x61, 0x62, 0x61] := by decide
/-- E10: where the draw keeps the output (log 2), a distance past it leaves `"abc"`. -/
theorem test_expand_refused (h : Config.expandKeeps 0 = true) :
    after out (exec .expand { bufs [] 0 [0x61, 0x62, 0x63] with dist := 4#32, len := 1#32 }) =
    some [0x61, 0x62, 0x63] := by
  have hk : ∀ a b : State, (if Config.expandKeeps 0 = true then a else b) = a := fun _ _ => if_pos h
  exact (congrArg (fun t => some (out (complete (recordError .invalidBackref t)))) (hk _ _)).trans (by decide)
/-- E10, E12, E15: the errors and their order. -/
theorem test_expand_errors :
    after status (exec .expand { bufs [] 0 [0x61, 0x62, 0x63] with dist := 4#32, len := 1#32 }) = some 0x222 ∧
    after status (exec .expand { bufs [] 0 [0x61, 0x62, 0x63] with dist := 1#32, len := 0xFFFFFFFF#32 }) = some 0x32 ∧
    after status (exec .expand { bufs [] 0 [0x61, 0x62, 0x63] with dist := 0#32, len := 0xFFFFFFFF#32 }) =
      some 0x222 := by decide
/-- T1. -/
theorem test_xfer :
    after (fun t => (inp t, t.olen)) (exec .xfer (bufs [0x78, 0x79, 0x7A] 1 [0x3C, 0x65, 0x30])) =
    some (([0x3C, 0x65, 0x30], 0), 0) := by decide
/-- V15, V24. -/
theorem test_venc :
    after out (exec .venc { State.reset with value := 832#32 }) = some [0x2F, 0x30] ∧
    after out (exec .venc { State.reset with value := 262144#32 }) = some [0x3E, 0x31, 0x30, 0x30, 0x30] := by decide
/-- R110: 2^24 is out of range, nothing is appended. -/
theorem test_venc_range :
    after (fun t => (out t, status t)) (exec .venc { bufs [] 0 [0x61] with value := 16777216#32 }) =
    some ([0x61], 0x112) := by decide
/-- X1: `"<e0"` is 896; the cursor stops after it. -/
theorem test_vdec :
    after (fun t => (t.value, t.icur)) (exec .vdec (bufs [0x61, 0x3C, 0x65, 0x30, 0x3F] 1 [])) =
    some (896#32, 4) := by decide
/-- R116, R117: `"<e"` is cut off, `"#?"` has no digit. -/
theorem test_vdec_errors :
    after status (exec .vdec (bufs [0x3C, 0x65] 0 [])) = some 0x322 ∧
    after status (exec .vdec (bufs [0x23, 0x3F] 0 [])) = some 0x122 := by decide
/-- D8: `"aaaaa"` gives `"a?14"`. -/
theorem test_deflate_overlap :
    after (fun t => (out t, t.icur)) (exec .deflate (bufs [0x61, 0x61, 0x61, 0x61, 0x61] 0 [])) =
    some ([0x61, 0x3F, 0x31, 0x34], 5) := by decide
/-- D6: `"abcdabcd"` gives `"abcd?44"`. -/
theorem test_deflate_near :
    after out (exec .deflate (bufs [0x61, 0x62, 0x63, 0x64, 0x61, 0x62, 0x63, 0x64] 0 [])) =
    some [0x61, 0x62, 0x63, 0x64, 0x3F, 0x34, 0x34] := by decide
/-- F4, F7: the far form, and a distance `"<01"` that the encoder would not write. -/
theorem test_inflate :
    after out (exec .inflate (bufs [0x61, 0x40, 0x30, 0x31, 0x31] 0 [])) = some [0x61, 0x61] ∧
    after out (exec .inflate (bufs [0x61, 0x3F, 0x3C, 0x30, 0x31, 0x31] 0 [])) = some [0x61, 0x61] := by decide
/-- F18, F25, F28, F15: which error comes first. -/
theorem test_inflate_errors :
    after status (exec .inflate (bufs [0x3F, 0x30, 0x31] 0 [])) = some 0x222 ∧
    after status (exec .inflate (bufs [0x40, 0x23, 0x30, 0x31] 0 [])) = some 0x122 ∧
    after status (exec .inflate (bufs [0x3F, 0x30, 0x3F] 0 [])) = some 0x122 ∧
    after status (exec .inflate (bufs [0x3F, 0x30] 0 [])) = some 0x322 := by decide

/-! The bus. -/

/-- C10, C12: `CMD` and a reserved offset read 0. -/
theorem test_bus_zero_reads :
    after State.replies (step (sends (.access 0 (.read 0x00#26 4)) State.reset)) = some [.word 0#32] ∧
    after State.replies (step (sends (.access 0 (.read 0x20#26 4)) State.reset)) = some [.word 0#32] := by decide
/-- C13: the bus errors. -/
theorem test_bus_errors :
    step (sends (.access 0 (.read 0x40#26 4)) State.reset) = .fault (.busError .unmapped) ∧
    step (sends (.access 0 (.read 0x06#26 4)) State.reset) = .fault (.busError .registerMisaligned) ∧
    step (sends (.access 0 (.read 0x08#26 1)) State.reset) = .fault (.busError .registerWidth) ∧
    step (sends (.access 0 (.read 0x1000000#26 4)) State.reset) = .fault (.busError .windowWidth) ∧
    step (sends (.access 0 (.write 0x2000000#26 1 0#32)) State.reset) = .fault (.busError .windowWrite) :=
  ⟨rfl, rfl, rfl, rfl, rfl⟩
/-- C14: window reads below and at the length. -/
theorem test_bus_window :
    after State.replies (step (sends (.access 0 (.read 0x1000001#26 1)) (bufs [0x61, 0x62] 0 []))) =
      some [.byte 0x62#8] ∧
    after State.replies (step (sends (.access 0 (.read 0x1000002#26 1)) (bufs [0x61, 0x62] 0 []))) =
      some [.byte 0x00#8] := by decide
/-- R51, R53: `OLEN` and the last byte of the output window. -/
theorem test_bus_output :
    after State.replies (step (sends (.access 0 (.read 0x1C#26 4)) (lengths 0 16777216))) =
      some [.word 0x01000000#32] ∧
    after State.replies (step (sends (.access 0 (.read 0x2FFFFFF#26 1)) (lengths 0 16777216))) =
      some [.byte 0x00#8] := by decide
/-- R25: a `CMD` write while idle latches its word; C8: `VALUE` is written while an error stands. -/
theorem test_bus_writes :
    after (fun t => (t.busy, t.cmd)) (step (sends (.access 0 (.write 0x00#26 4 0x9#32)) State.reset)) =
      some (true, 0x9#32) ∧
    after State.value (step (sends (.access 0 (.write 0x08#26 4 7#32)) (erred .reservedOpcode State.reset))) =
      some 7#32 := by decide
/-- R62: a write while busy is dropped. -/
theorem test_bus_busy_write :
    after (fun t => (t.value, t.cmd)) (step (busyWith 0x9#32 1 (.access 0 (.write 0x08#26 4 7#32)) State.reset)) =
    some (0#32, 0x9#32) := by decide
/-- R93: `oapp 'a'` is a write of `VALUE`, a write of `CMD` and a poll; the numbers are P1's rows 1 to 3. -/
theorem test_script_oapp :
    scriptEvents 0 (pseudoOapp 0x61#8) =
    [.access 0 (.write 0x08#26 4 0x61#32), .access 0 (.write 0x00#26 4 0x3#32), .poll 0] := by decide

/-! Witnesses: for each statement with hypotheses, a state and operands that meet all of them, at the boundary of
each clause. -/

theorem witness_OpcodeMapDecodes :
    (0x00000000#32 : Word).toNat % 16 = 0 ∧ (0xFFFFFFF0#32 : Word).toNat % 16 = 0 ∧
    13 ≤ (0x0000000D#32 : Word).toNat % 16 ∧ 13 ≤ (0x0000001F#32 : Word).toNat % 16 := by decide

theorem witness_DecodeOfEncodeIsTheCommand :
    Instr.clear.wellFormed = true ∧ Instr.expand.wellFormed = true ∧ Instr.inflate.wellFormed = true := by decide

theorem witness_OnlyItsOwnWordDecodesToACommand :
    decodeWord 0x00000001#32 = .command .clear ∧ decodeWord 0x0000000C#32 = .command .inflate := by decide

theorem witness_IllegalWordChangesOnlyStatus :
    (∀ w : Word, engineNext (placeCommand w State.reset) ∧ (placeCommand w State.reset).err = false) ∧
    (0x00000010#32 : Word).toNat % 16 = 0 ∧ 13 ≤ (0x0000000D#32 : Word).toNat % 16 ∧
    (0x00000019#32 : Word).toNat / 16 ≠ 0 := ⟨fun _ => ⟨⟨rfl, rfl, .inl rfl⟩, rfl⟩, by decide⟩

theorem witness_StepRunsTheDecodedCommand :
    engineNext (placeCommand 0x4#32 State.reset) ∧ decodeWord (placeCommand 0x4#32 State.reset).cmd = .command .peek ∧
    statusLegal State.reset = true := ⟨⟨rfl, rfl, .inl rfl⟩, by decide, rfl⟩

theorem witness_ResetInputAbandonsTheCommand :
    hostNext (sends .reset (lengths 5 7)) .reset [] ∧ hostNext (busyWith 0xB#32 1 .reset (lengths 5 0)) .reset [] :=
  ⟨⟨rfl, rfl, .inl rfl⟩, ⟨rfl, rfl, .inr (by decide)⟩⟩

theorem witness_IdleBlockWaits :
    statusLegal State.reset = true ∧ State.reset.busy = false ∧ State.reset.host = [] := ⟨rfl, rfl, rfl⟩

theorem witness_IappendStoresOrDiscards :
    (∀ (n : Nat) (v : Word), ({ lengths n 0 with value := v } : State).err = false ∧
      ({ lengths n 0 with value := v } : State).allocMayFail = false) ∧
    keep ((0x20#32 : Word).setWidth 8) = false ∧ keep ((0x23#32 : Word).setWidth 8) = true ∧
    keep ((0x7A#32 : Word).setWidth 8) = true ∧ 16777215 < Config.cap ∧ ¬ 16777216 < Config.cap :=
  ⟨fun _ _ => ⟨rfl, rfl⟩, by decide⟩

theorem witness_OappendStoresOrDiscards :
    (∀ (n : Nat) (v : Word), ({ lengths 0 n with value := v } : State).err = false ∧
      ({ lengths 0 n with value := v } : State).allocMayFail = false) ∧
    keep ((0x5B#32 : Word).setWidth 8) = false ∧ keep ((0x5E#32 : Word).setWidth 8) = true ∧
    16777215 < Config.cap ∧ ¬ 16777216 < Config.cap := ⟨fun _ _ => ⟨rfl, rfl⟩, by decide⟩

theorem witness_PeekGivesTheNextCharacter :
    (bufs [0x61] 0 []).err = false ∧ (bufs [0x61] 0 []).icur < (bufs [0x61] 0 []).ilen ∧
    (bufs [0x61] 1 []).err = false ∧ (bufs [0x61] 1 []).icur = (bufs [0x61] 1 []).ilen := by decide

theorem witness_ConsumeAdvancesOrIsTruncated :
    (bufs [0x61] 0 []).err = false ∧ (bufs [0x61] 0 []).icur < (bufs [0x61] 0 []).ilen ∧
    (bufs [0x61] 1 []).err = false ∧ (bufs [0x61] 1 []).icur = (bufs [0x61] 1 []).ilen := by decide

theorem witness_AtendAnswersInValue :
    (bufs [0x61] 0 []).err = false ∧ (bufs [0x61] 0 []).icur ≠ (bufs [0x61] 0 []).ilen ∧
    (bufs [0x61] 1 []).err = false ∧ (bufs [0x61] 1 []).icur = (bufs [0x61] 1 []).ilen := by decide

/-- Distance 0, length 0, a distance one past the output, the longest copy that fits, and one past it. -/
theorem witness_ExpandCopiesOrRefuses :
    (∀ d l : Word, ({ bufs [] 0 [0x61, 0x62, 0x63] with dist := d, len := l } : State).err = false ∧
      ({ bufs [] 0 [0x61, 0x62, 0x63] with dist := d, len := l } : State).allocMayFail = false ∧
      ({ bufs [] 0 [0x61, 0x62, 0x63] with dist := d, len := l } : State).olen = 3) ∧
    (∀ c ∈ textOf .obuf (bufs [] 0 [0x61, 0x62, 0x63]), keep c = true) ∧
    3 < (4#32 : Word).toNat ∧ ¬ 3 < (3#32 : Word).toNat ∧ 3 + (0xFFFFFD#32 : Word).toNat = Config.cap ∧
    Config.cap < 3 + (0xFFFFFE#32 : Word).toNat ∧ Config.cap < 3 + (0xFFFFFFFF#32 : Word).toNat :=
  ⟨fun _ _ => ⟨rfl, rfl, rfl⟩, by decide⟩

theorem witness_ExpandRepeatsWithPeriod :
    ∃ s : State, s.err = false ∧ s.allocMayFail = false ∧ (∀ c ∈ textOf .obuf s, keep c = true) ∧
      1 ≤ s.dist.toNat ∧ 1 ≤ s.len.toNat ∧ s.dist.toNat ≤ s.olen ∧ s.olen + s.len.toNat ≤ Config.cap ∧
      s.dist.toNat < s.len.toNat :=
  ⟨{ bufs [] 0 [0x61, 0x62] with dist := 2#32, len := 5#32 }, by decide⟩

theorem witness_XferMovesTheText :
    (bufs [0x78, 0x79] 1 [0x3C]).err = false ∧ (bufs [0x78, 0x79] 1 [0x3C]).ibuf.wf = true := by decide

theorem witness_DigitsAreABijection :
    isDigit 0x30#8 = true ∧ isDigit 0x3B#8 = true ∧ isDigit 0x7A#8 = true ∧ isDigit 0x5A#8 = true := by decide

theorem witness_DecodeValueInvertsEncodeValue : 0 < 16777216 ∧ 16777215 < 16777216 := by decide

/-- A digit, the first and the last TIER character, each LONG one with digits no encoder writes, a first character of
no form, a number cut off and one with a character that is no digit. -/
theorem witness_DecodeValueReadsEveryForm :
    isDigit 0x30#8 = true ∧ isDigit 0x3B#8 = true ∧ 0x23 ≤ (0x23#8 : Byte).toNat ∧ (0x2F#8 : Byte).toNat ≤ 0x2F ∧
    decodeValue (txt [0x23, 0x30]) = .ok 64 [] ∧ decodeValue (txt [0x2F, 0x3B]) = .ok 895 [] ∧
    decodeValue (txt [0x3C, 0x30, 0x30]) = .ok 0 [] ∧ decodeValue (txt [0x3D, 0x30, 0x30, 0x31]) = .ok 1 [] ∧
    decodeValue (txt [0x3E, 0x30, 0x30, 0x31, 0x30]) = .ok 64 [] ∧
    isDigit 0x3F#8 = false ∧ ¬(0x23 ≤ (0x3F#8 : Byte).toNat ∧ (0x3F#8 : Byte).toNat ≤ 0x2F) ∧
    (0x3F#8 : Byte) ≠ 0x3C#8 ∧ (0x3F#8 : Byte) ≠ 0x3D#8 ∧ (0x3F#8 : Byte) ≠ 0x3E#8 ∧
    (txt [0x30]).length < 2 ∧ (∀ d ∈ txt [0x30], isDigit d = true) ∧ isDigit 0x5E#8 = false := by decide

theorem witness_EncodeValueIsInjective :
    16777215 < 16777216 ∧ encodeValue 16777215 = encodeValue 16777215 := ⟨by decide, rfl⟩

theorem witness_DecodedValueIsInRange :
    decodeValue (txt [0x30]) = .ok 0 [] ∧
    decodeValue (txt [0x3E, 0x3B, 0x3B, 0x3B, 0x3B, 0x3F]) = .ok 16777215 (txt [0x3F]) := by decide

theorem witness_VencAppendsTheEncoding :
    (∀ (n : Nat) (v : Word), ({ lengths 0 n with value := v } : State).err = false ∧
      ({ lengths 0 n with value := v } : State).allocMayFail = false) ∧
    16777216 ≤ (16777216#32 : Word).toNat ∧ ¬ 16777216 ≤ (16777215#32 : Word).toNat ∧
    16777211 + (encodeValue 16777215).length = Config.cap ∧ Config.cap < 16777212 + (encodeValue 16777215).length :=
  ⟨fun _ _ => ⟨rfl, rfl⟩, by decide⟩

theorem witness_VdecDecodesIntoValue :
    (bufs [0x3C, 0x65, 0x30] 0 []).err = false ∧
    (bufs [0x3C, 0x65, 0x30] 0 []).icur ≤ (bufs [0x3C, 0x65, 0x30] 0 []).ilen ∧
    decodeValue (unread (bufs [0x3C, 0x65, 0x30] 0 [])) = .ok 896 [] ∧
    decodeValue (unread (bufs [0x61] 1 [])) = .bad .truncated ∧
    decodeValue (unread (bufs [0x3F] 0 [])) = .bad .invalidNumeric := by decide

theorem witness_VdecReadsAnEncodedValue :
    (bufs [0x3C, 0x65, 0x30, 0x3F] 0 []).err = false ∧
    unread (bufs [0x3C, 0x65, 0x30, 0x3F] 0 []) = encodeValue 896 ++ txt [0x3F] := by decide

theorem witness_MatchLenIsTheLargest : 0 < 1 ∧ 1 < (txt [0x61, 0x61]).length := by decide

/-- Both outcomes of the search. -/
theorem witness_BestMatchIsLongestThenNearest :
    (bestMatch (txt [0x61, 0x61, 0x61, 0x61, 0x61]) 1) = ⟨4, 1⟩ ∧
    (bestMatch (txt [0x61, 0x61, 0x61, 0x61]) 1) = ⟨0, 0⟩ := by decide

theorem witness_ShortInputIsUnchanged : (txt [0x61, 0x61, 0x61]).length < 4 := by decide

theorem witness_EveryTokenIsShorter :
    1 < (txt [0x61, 0x61, 0x61, 0x61, 0x61]).length ∧
    isLiteral (bestMatch (txt [0x61, 0x61, 0x61, 0x61, 0x61]) 1) = false := by decide

/-- Enough fuel at the last position of a round and past it; a literal, and a near token (D8). -/
theorem witness_CompressorFollowsItsLoop :
    (txt [0x61, 0x61, 0x61, 0x61, 0x61]).length - 1 ≤ 4 ∧ 1 + 4 ≤ (txt [0x61, 0x61, 0x61, 0x61, 0x61]).length ∧
    (txt [0x61, 0x61, 0x61, 0x61, 0x61]).length - 5 ≤ 0 ∧
    (bestMatch (txt [0x61, 0x61, 0x61, 0x61, 0x61]) 0).len = 0 ∧
    ¬((bestMatch (txt [0x61, 0x61, 0x61, 0x61, 0x61]) 1).len = 0 ∨
      ((bestMatch (txt [0x61, 0x61, 0x61, 0x61, 0x61]) 1).len = 4 ∧
        64 ≤ (bestMatch (txt [0x61, 0x61, 0x61, 0x61, 0x61]) 1).dist)) := by decide

/-- A far token: a match of length 5 at distance 64 (D21). -/
theorem witness_CompressorFollowsItsLoop_far :
    bestMatch (txt ([0x61, 0x62, 0x63, 0x64, 0x65] ++ List.replicate 59 0x30 ++ [0x61, 0x62, 0x63, 0x64, 0x65])) 64 =
      ⟨5, 64⟩ := by decide

theorem witness_DeflateCompressesTheUnreadText :
    (bufs [0x3F, 0x40, 0x61] 0 []).err = false ∧ (bufs [0x3F, 0x40, 0x61] 0 []).allocMayFail = false ∧
    (bufs [0x3F, 0x40, 0x61] 0 []).ilen ≤ Config.cap ∧ (∀ c ∈ unread (bufs [0x3F, 0x40, 0x61] 0 []), keep c = true) ∧
    (bufs [0x3F, 0x40, 0x61] 0 []).olen = 0 ∧
    (∀ c ∈ unread (bufs [0x61] 0 [0x62]), keep c = true) ∧ (bufs [0x61] 0 [0x62]).olen ≠ 0 := by decide

/-- A literal, a near reference that reads its own copy, a far one. -/
theorem witness_InflateDecodesTheGrammar :
    unread (bufs [0x61, 0x3F, 0x31, 0x32, 0x40, 0x30, 0x33, 0x31] 0 []) =
      ([.literal 0x61#8, .qref (txt [0x31]) (txt [0x32]), .aref 0x30#8 0x33#8 (txt [0x31])] : List Item).flatMap
        itemText ∧
    applyItems [] [.literal 0x61#8, .qref (txt [0x31]) (txt [0x32]), .aref 0x30#8 0x33#8 (txt [0x31])] =
      some (txt [0x61, 0x61, 0x61, 0x61]) ∧
    (bufs [0x61, 0x3F, 0x31, 0x32, 0x40, 0x30, 0x33, 0x31] 0 []).err = false ∧
    (bufs [0x61, 0x3F, 0x31, 0x32, 0x40, 0x30, 0x33, 0x31] 0 []).olen = 0 ∧
    (bufs [0x61, 0x3F, 0x31, 0x32, 0x40, 0x30, 0x33, 0x31] 0 []).allocMayFail = false := by decide

/-- F14, F25, F20, and a length one past the ceiling, each after the literal `'a'`. -/
theorem witness_InflateReportsTheFirstError :
    (∀ t : List Nat, (bufs t 0 []).err = false ∧ (bufs t 0 []).olen = 0 ∧ (bufs t 0 []).allocMayFail = false) ∧
    unread (bufs [0x61, 0x3F] 0 []) = ([.literal 0x61#8] : List Item).flatMap itemText ++ txt [0x3F] ∧
    unread (bufs [0x61, 0x40, 0x23, 0x30, 0x31] 0 []) =
      ([.literal 0x61#8] : List Item).flatMap itemText ++ txt [0x40, 0x23, 0x30, 0x31] ∧
    unread (bufs [0x61, 0x3F, 0x32, 0x31] 0 []) =
      ([.literal 0x61#8] : List Item).flatMap itemText ++ txt [0x3F, 0x32, 0x31] ∧
    applyItems [] [.literal 0x61#8] = some (txt [0x61]) ∧
    itemError (txt [0x61]) (txt [0x3F]) = some .truncated ∧
    itemError (txt [0x61]) (txt [0x40, 0x23, 0x30, 0x31]) = some .invalidNumeric ∧
    itemError (txt [0x61]) (txt [0x3F, 0x32, 0x31]) = some .invalidBackref ∧
    itemError (txt [0x61]) (txt [0x3F, 0x31, 0x3E, 0x3B, 0x3B, 0x3B, 0x3B]) = none ∧
    itemError (txt [0x61, 0x61]) (txt [0x3F, 0x31, 0x3E, 0x3B, 0x3B, 0x3B, 0x3B]) = some .tooLong :=
  ⟨fun _ => ⟨rfl, rfl, rfl⟩, by decide⟩

/-- A full output and a further kept literal (F12 and one more). -/
theorem witness_InflateReportsTheFirstError_ceiling :
    applyItems [] [.literal 0x61#8, .qref (txt [0x31]) (txt [0x3E, 0x3B, 0x3B, 0x3B, 0x3B])] =
      some ([0x61#8] ++ copied [0x61#8] 1 16777215) ∧
    itemError ([0x61#8] ++ copied [0x61#8] 1 16777215) [0x61#8] = some .tooLong := by
  have hl : ([0x61#8] ++ copied [0x61#8] 1 16777215).length = Config.cap := by
    rw [copied, List.length_append, List.length_map, List.length_range]; rfl
  have h1 : applyItem [] (.literal 0x61#8) = some [0x61#8] := by decide
  have h2 : applyItem [0x61#8] (.qref (txt [0x31]) (txt [0x3E, 0x3B, 0x3B, 0x3B, 0x3B])) =
      applyRef [0x61#8] 1 16777215 := rfl
  refine ⟨?_, ?_⟩
  · rw [applyItems, h1]
    simp only [applyItems, h2]
    rw [applyRef, if_pos (by decide)]
  · rw [itemError, if_neg (by decide), if_neg (by decide), if_pos ⟨by decide, Nat.le_of_eq hl.symm⟩]

theorem witness_InflateNeedsAnEmptyOutput :
    (bufs [0x61] 0 [0x62]).err = false ∧ (bufs [0x61] 0 [0x62]).olen ≠ 0 := by decide

theorem witness_InflateUndoesDeflate :
    (bufs [0x61, 0x61, 0x61, 0x61, 0x61] 0 []).err = false ∧
    (bufs [0x61, 0x61, 0x61, 0x61, 0x61] 0 []).allocMayFail = false ∧
    (bufs [0x61, 0x61, 0x61, 0x61, 0x61] 0 []).olen = 0 ∧
    (bufs [0x61, 0x61, 0x61, 0x61, 0x61] 0 []).ilen ≤ Config.cap ∧
    (bufs [0x61, 0x61, 0x61, 0x61, 0x61] 0 []).ibuf.wf = true ∧
    (∀ c ∈ unread (bufs [0x61, 0x61, 0x61, 0x61, 0x61] 0 []), tokenChar c = true) := by decide

/-- C6 and C9, and the reset input with an error standing. -/
theorem witness_ErrorIsStickyUntilClear :
    (∀ w : Word, engineNext (placeCommand w (erred .truncated State.reset)) ∧
      (placeCommand w (erred .truncated State.reset)).err = true ∧
      (placeCommand w (erred .truncated State.reset)).cmd = w) ∧
    (0x80000001#32 : Word) ≠ 0x00000001#32 ∧
    hostNext (sends (.access 0 (.write 0x0000000#26 4 0x80000001#32)) (erred .truncated State.reset))
      (.access 0 (.write 0x0000000#26 4 0x80000001#32)) [] ∧
    (erred .truncated State.reset).busy = false ∧ admitted (erred .truncated State.reset) 0 ∧
    hostNext (sends .reset (erred .truncated State.reset)) .reset [] :=
  ⟨fun _ => ⟨⟨rfl, rfl, .inl rfl⟩, rfl, rfl⟩, by decide, ⟨rfl, rfl, .inl rfl⟩, rfl, .inl rfl, ⟨rfl, rfl, .inl rfl⟩⟩

/-- One error detected before any write, and one after. -/
theorem witness_ErrorKeepsWhatIsOutsideTheWriteSet :
    (∃ t, exec .venc { State.reset with value := 16777216#32 } = .next t ∧
      ({ State.reset with value := 16777216#32 } : State).err = false ∧ t.err = true ∧ t.ecode = 1#4) ∧
    (∃ t, exec .consume State.reset = .next t ∧ State.reset.err = false ∧ t.err = true ∧ t.ecode ≠ 1#4 ∧
      State.reset.icur ≤ State.reset.ilen ∧ State.reset.ilen ≤ Config.cap ∧ State.reset.olen ≤ Config.cap) :=
  ⟨⟨_, rfl, rfl, rfl, rfl⟩, ⟨_, rfl, rfl, rfl, by decide, by decide⟩⟩

/-- Every error of every command that can raise one. -/
theorem witness_EachCommandRaisesItsOwnErrors :
    raises .iappend { lengths 16777216 0 with value := 0x61#32 } = some 0x32 ∧
    raises .oappend { lengths 0 16777216 with value := 0x61#32 } = some 0x32 ∧
    raises .consume State.reset = some 0x322 ∧
    raises .expand State.reset = some 0x222 ∧
    raises .expand { lengths 0 1 with dist := 1#32, len := 16777216#32 } = some 0x32 ∧
    raises .venc { State.reset with value := 16777216#32 } = some 0x112 ∧
    raises .venc { lengths 0 16777216 with value := 0#32 } = some 0x32 ∧
    raises .vdec State.reset = some 0x322 ∧
    raises .vdec (bufs [0x3F] 0 []) = some 0x122 ∧
    raises .deflate (lengths 0 1) = some 0x212 ∧
    raises .inflate (lengths 0 1) = some 0x212 ∧
    raises .inflate (bufs [0x3F] 0 []) = some 0x322 ∧
    raises .inflate (bufs [0x3F, 0x5E] 0 []) = some 0x122 ∧
    raises .inflate (bufs [0x3F, 0x30, 0x31] 0 []) = some 0x222 ∧
    raises .inflate (bufs [0x61, 0x61, 0x3F, 0x31, 0x3E, 0x3B, 0x3B, 0x3B, 0x3B] 0 []) = some 0x32 := by
  decide

/-- A command without, and an append with, allocations that may fail. -/
theorem witness_AllocationFailsOnlyByDraw :
    (∃ t, exec .iappend (lengths 3 0) = .next t ∧ (lengths 3 0).allocMayFail = false ∧ (lengths 3 0).err = false) ∧
    ({ State.reset with allocMayFail := true } : State).allocMayFail = true ∧ keep 0x61#8 = true ∧
    lengthOf .ibuf { lengths 16777215 0 with allocMayFail := true } < Config.cap ∧
    ({ lengths 16777215 16777215 with allocMayFail := true, value := 0x61#32 } : State).err = false ∧
    keep ((0x61#32 : Word).setWidth 8) = true ∧
    ({ lengths 16777215 16777215 with allocMayFail := true, value := 0x61#32 } : State).olen < Config.cap ∧
    (∃ t, exec .consume { State.reset with allocMayFail := true } = .next t ∧ t.err = true) :=
  ⟨⟨_, rfl, rfl, rfl⟩, rfl, by decide, by decide, rfl, by decide, by decide, ⟨_, rfl, rfl⟩⟩

/-- An error, a sticky one, and a command without any. -/
theorem witness_CommandsKeepToTheirWriteSets :
    (∃ t, exec .vdec State.reset = .next t ∧ t.err = true) ∧
    (∃ t, exec .peek (erred .truncated State.reset) = .next t ∧ t.err = true) ∧
    (∃ t, exec .xfer (bufs [0x61] 0 [0x62]) = .next t ∧ t.err = false) :=
  ⟨⟨_, rfl, rfl⟩, ⟨_, rfl, rfl⟩, ⟨_, rfl, rfl⟩⟩

theorem witness_SuccessfulCommandsStoreOnlyNewCells :
    (∃ t, exec .xfer (bufs [0x61] 0 [0x62]) = .next t ∧ t.err = false) ∧
    (∃ t, exec .clear (bufs [0x61] 0 [0x62]) = .next t ∧ t.err = false) ∧
    (∃ t, exec .oappend { bufs [0x61] 0 [0x62] with value := 0x63#32 } = .next t ∧ t.err = false ∧ t.olen = 2) :=
  ⟨⟨_, rfl, rfl⟩, ⟨_, rfl, rfl⟩, ⟨_, rfl, rfl, rfl⟩⟩

theorem witness_CursorAndLengthsOnlyAdvance :
    ∃ t, exec .consume (bufs [0x61] 0 []) = .next t ∧ t.err = false ∧ t.icur = 1 ∧
      (bufs [0x61] 0 []).icur ≤ (bufs [0x61] 0 []).ilen := ⟨_, rfl, rfl, rfl, by decide⟩

theorem witness_DistAndLenChangeOnlyByHostWrites :
    (∃ t, exec .expand State.reset = .next t) ∧
    admitted State.reset 3 ∧
    hostNext (sends (.access 3 (.write 0x0C#26 4 0xFFFFFFFF#32)) State.reset)
      (.access 3 (.write 0x0C#26 4 0xFFFFFFFF#32)) [] ∧
    hostNext (sends (.access 3 (.write 0x10#26 4 0xFFFFFFFF#32)) State.reset)
      (.access 3 (.write 0x10#26 4 0xFFFFFFFF#32)) [] ∧
    hostNext (busyWith 0x7#32 1 (.access 3 (.read 0x0C#26 4)) State.reset) (.access 3 (.read 0x0C#26 4)) [] ∧
    hostNext (sends (.access 3 (.read 0x10#26 4)) State.reset) (.access 3 (.read 0x10#26 4)) [] :=
  ⟨⟨_, rfl⟩, .inl rfl, ⟨rfl, rfl, .inl rfl⟩, ⟨rfl, rfl, .inl rfl⟩, ⟨rfl, rfl, .inr (by decide)⟩,
   ⟨rfl, rfl, .inl rfl⟩⟩

/-- The invariant and a step, from reset and from a state that runs a command. -/
theorem witness_EveryStepKeepsTheInvariant :
    BlockInv State.reset ∧ step State.reset = .next State.reset ∧
    BlockInv (placeCommand 0x6#32 State.reset) ∧ ∃ t, step (placeCommand 0x6#32 State.reset) = .next t :=
  ⟨⟨⟨rfl, rfl⟩, ⟨rfl, rfl⟩, by decide, by decide, by decide, rfl, fun _ => by decide, fun _ => by decide⟩, rfl,
   ⟨⟨rfl, rfl⟩, ⟨rfl, rfl⟩, by decide, by decide, by decide, rfl, fun _ => by decide, fun h => by cases h⟩,
   ⟨_, rfl⟩⟩

/-- An idle access with and without an agent served. -/
theorem witness_StatusReadComposesItsFields :
    hostNext (sends (.access 0 (.read 0x04#26 4)) (erred .truncated State.reset)) (.access 0 (.read 0x04#26 4)) [] ∧
    (sends (.access 0 (.read 0x04#26 4)) (erred .truncated State.reset)).busy = false ∧
    admitted (serve none State.reset) 0 ∧ admitted (serve (some 0) State.reset) 0 :=
  ⟨⟨rfl, rfl, .inl rfl⟩, rfl, .inl rfl, .inr rfl⟩

/-- The first and the last offset of the block, and each register's own. -/
theorem witness_RegisterReadsReturnTheRegisters :
    (∀ a : Addr, hostNext (sends (.access 0 (.read a 4)) State.reset) (.access 0 (.read a 4)) [] ∧
      (sends (.access 0 (.read a 4)) State.reset).busy = false ∧
      admitted (sends (.access 0 (.read a 4)) State.reset) 0) ∧
    (∀ n ∈ [0x00, 0x08, 0x0C, 0x10, 0x14, 0x18, 0x1C, 0x20, 0x3C],
      (BitVec.ofNat 26 n).toNat < 0x40 ∧ (BitVec.ofNat 26 n).toNat % 4 = 0 ∧ (BitVec.ofNat 26 n).toNat ≠ 4) :=
  ⟨fun _ => ⟨⟨rfl, rfl, .inl rfl⟩, rfl, .inl rfl⟩, by decide⟩

/-- The first cell and the last, of each window. -/
theorem witness_WindowReadsGiveTheCells :
    0 < 16777216 ∧ 16777215 < 16777216 ∧
    (∀ k : Nat, hostNext (sends (.access 0 (.read (BitVec.ofNat 26 (0x1000000 + k)) 1)) (lengths 16777216 16777216))
      (.access 0 (.read (BitVec.ofNat 26 (0x1000000 + k)) 1)) []) ∧
    (∀ k : Nat, hostNext (sends (.access 0 (.read (BitVec.ofNat 26 (0x2000000 + k)) 1)) (lengths 16777216 16777216))
      (.access 0 (.read (BitVec.ofNat 26 (0x2000000 + k)) 1)) []) :=
  ⟨by decide, by decide, fun _ => ⟨rfl, rfl, .inl rfl⟩, fun _ => ⟨rfl, rfl, .inl rfl⟩⟩

/-- Any access of a fresh block; the addresses where the regions meet. -/
theorem witness_BusErrorsAreExactlyTheIllegalAccesses :
    (∀ op : BusOp, hostNext (sends (.access 0 op) State.reset) (.access 0 op) [] ∧
      admitted (sends (.access 0 op) State.reset) 0) ∧
    busErrorOf (.read 0x3C#26 4) = none ∧ busErrorOf (.read 0x40#26 4) = some .unmapped ∧
    busErrorOf (.read 0xFFFFFF#26 1) = some .unmapped ∧ busErrorOf (.read 0x1000000#26 1) = none ∧
    busErrorOf (.read 0x1FFFFFF#26 1) = none ∧ busErrorOf (.read 0x2000000#26 1) = none ∧
    busErrorOf (.read 0x2FFFFFF#26 1) = none ∧ busErrorOf (.read 0x3000000#26 1) = some .unmapped :=
  ⟨fun _ => ⟨⟨rfl, rfl, .inl rfl⟩, .inl rfl⟩, by decide⟩

theorem witness_CmdWriteStartsACommand :
    admitted State.reset 0 ∧
    hostNext (sends (.access 0 (.write 0x00#26 4 0x9#32)) State.reset) (.access 0 (.write 0x00#26 4 0x9#32)) [] ∧
    hostNext (busyWith 0x9#32 1 (.access 0 (.write 0x00#26 4 0x1#32)) State.reset)
      (.access 0 (.write 0x00#26 4 0x1#32)) [] ∧
    hostNext (sends (.access 0 (.read 0x00#26 4)) State.reset) (.access 0 (.read 0x00#26 4)) [] :=
  ⟨.inl rfl, ⟨rfl, rfl, .inl rfl⟩, ⟨rfl, rfl, .inr (by decide)⟩, ⟨rfl, rfl, .inl rfl⟩⟩

/-- A read-only register, a reserved offset, and the operand registers. -/
theorem witness_RegisterWritesIdle :
    (∀ (a : Addr) (v : Word),
      hostNext (sends (.access 0 (.write a 4 v)) State.reset) (.access 0 (.write a 4 v)) [] ∧
      admitted (sends (.access 0 (.write a 4 v)) State.reset) 0) ∧
    (∀ a : Addr, hostNext (sends (.access 0 (.read a 4)) State.reset) (.access 0 (.read a 4)) []) ∧
    (∀ n ∈ [0x04, 0x08, 0x0C, 0x10, 0x14, 0x20, 0x3C],
      (BitVec.ofNat 26 n).toNat < 0x40 ∧ (BitVec.ofNat 26 n).toNat % 4 = 0 ∧ (BitVec.ofNat 26 n).toNat ≠ 0) :=
  ⟨fun _ _ => ⟨⟨rfl, rfl, .inl rfl⟩, .inl rfl⟩, fun _ => ⟨rfl, rfl, .inl rfl⟩, by decide⟩

theorem witness_WritesWhileBusyAreDropped :
    hostNext (busyWith 0x9#32 1 (.access 0 (.write 0x3C#26 4 7#32)) State.reset)
      (.access 0 (.write 0x3C#26 4 7#32)) [] ∧
    (busyWith 0x9#32 1 (.access 0 (.write 0x3C#26 4 7#32)) State.reset).busy = true ∧
    admitted (busyWith 0x9#32 1 (.access 0 (.write 0x3C#26 4 7#32)) State.reset) 0 ∧
    (0x3C#26 : Addr).toNat < 0x40 ∧ (0x3C#26 : Addr).toNat % 4 = 0 :=
  ⟨⟨rfl, rfl, .inr (by decide)⟩, rfl, .inl rfl, by decide⟩

theorem witness_ReadsWhileBusy :
    (∀ a : Addr, hostNext (busyWith 0x9#32 1 (.access 0 (.read a 4)) State.reset) (.access 0 (.read a 4)) [] ∧
      (busyWith 0x9#32 1 (.access 0 (.read a 4)) State.reset).busy = true ∧
      admitted (busyWith 0x9#32 1 (.access 0 (.read a 4)) State.reset) 0) ∧
    (∀ n ∈ [0x00, 0x04, 0x0C, 0x10, 0x20, 0x3C],
      (BitVec.ofNat 26 n).toNat < 0x40 ∧ (BitVec.ofNat 26 n).toNat % 4 = 0) ∧
    (∀ a : Addr, hostNext (busyWith 0x9#32 1 (.access 0 (.read a 1)) State.reset) (.access 0 (.read a 1)) []) ∧
    (∀ n ∈ [0x1000000, 0x1FFFFFF, 0x2000000, 0x2FFFFFF],
      0x1000000 ≤ (BitVec.ofNat 26 n).toNat ∧ (BitVec.ofNat 26 n).toNat < 0x3000000) :=
  ⟨fun _ => ⟨⟨rfl, rfl, .inr (Nat.zero_lt_succ 0)⟩, rfl, .inl rfl⟩, by decide,
   fun _ => ⟨rfl, rfl, .inr (Nat.zero_lt_succ 0)⟩, by decide⟩

theorem witness_PollRepeatsUntilIdle :
    admitted State.reset 0 ∧ hostNext (sends (.poll 0) State.reset) (.poll 0) [] ∧
    hostNext (busyWith 0x9#32 1 (.poll 0) State.reset) (.poll 0) [] :=
  ⟨.inl rfl, ⟨rfl, rfl, .inl rfl⟩, ⟨rfl, rfl, .inr (by decide)⟩⟩

theorem witness_InterleavedAgentsAreRefused :
    (sends (.access 1 (.read 0x04#26 4)) (serve (some 0) State.reset)).agent = some 0 ∧ 1 ≠ 0 ∧
    hostNext (sends (.access 1 (.read 0x04#26 4)) (serve (some 0) State.reset)) (.access 1 (.read 0x04#26 4)) [] :=
  ⟨rfl, by decide, ⟨rfl, rfl, .inl rfl⟩⟩

end Sys2Proof.Tests
end

/-! What an access to the register block does as a step, and who may change `DIST` and `LEN`. -/

namespace Sys2Proof.Machine

@[simp] theorem drawnRead_dist (s : State) : (drawnRead s).dist = s.dist := by unfold drawnRead; split <;> rfl
@[simp] theorem drawnRead_len (s : State) : (drawnRead s).len = s.len := by unfold drawnRead; split <;> rfl
@[simp] theorem drawnRead_replies (s : State) : (drawnRead s).replies = s.replies := by
  unfold drawnRead; split <;> rfl

/-- `CMD` reads 0, idle or busy (10_state.md R25). -/
@[simp] theorem readRegister_cmd (s : State) : readRegister (some .cmd) s = 0#32 := by
  unfold readRegister; split <;> rfl

/-- `DIST` reads its value, idle or busy (10_state.md R22, 20_memory.md R61). -/
@[simp] theorem readRegister_dist (s : State) : readRegister (some .dist) s = s.dist := by
  unfold readRegister; split <;> rfl

/-- `LEN` reads its value, idle or busy (10_state.md R23, 20_memory.md R61). -/
@[simp] theorem readRegister_len (s : State) : readRegister (some .len) s = s.len := by
  unfold readRegister; split <;> rfl

section RegisterAccess

variable {s : State} {ag : Nat} {addr : Addr} {v : Word} {rest : List HostEvent} {r : Option Reg}

/-- An aligned read of the register block replies what the register reads as before the access. -/
theorem step_registerRead (ha : admitted s ag) (h : hostNext s (.access ag (.read addr 4)) rest)
    (h40 : addr.toNat < 0x40) (h4 : addr.toNat % 4 = 0) (hr : regAt addr.toNat = r) :
    step s = .next (pushReply (.word (readRegister r s)) (drawnRead (serve (some ag) (takeEvent rest s)))) := by
  rw [access_read _ _ _ _ _ ha h (reg_noerr_read addr h40 h4), readAt, reg_region addr h40, ← hr]
  rfl

/-- An aligned write of the register block while idle writes the register at its offset. -/
theorem step_registerWrite_idle (hb : s.busy = false) (ha : admitted s ag)
    (h : hostNext s (.access ag (.write addr 4 v)) rest) (h40 : addr.toNat < 0x40) (h4 : addr.toNat % 4 = 0)
    (hr : regAt addr.toNat = r) :
    step s = .next (writeRegister r v (serve (some ag) (takeEvent rest s))) := by
  rw [access_write _ _ _ _ _ _ ha h (reg_noerr_write addr v h40 h4), writeAt, reg_region addr h40, ← hr]
  simp [hb]

/-- An aligned write of the register block while busy only takes its turn (20_memory.md R62). -/
theorem step_registerWrite_busy (hb : s.busy = true) (ha : admitted s ag)
    (h : hostNext s (.access ag (.write addr 4 v)) rest) (h40 : addr.toNat < 0x40) (h4 : addr.toNat % 4 = 0) :
    step s = .next (serve (some ag) (takeEvent rest s)) := by
  rw [access_write _ _ _ _ _ _ ha h (reg_noerr_write addr v h40 h4), writeAt]
  simp [hb]

end RegisterAccess

/-- However a command's work ends, completing it keeps `DIST` and `LEN`. -/
theorem endOf_dist_len (i : Instr) (w : Work) :
    (endOf i w).dist = w.state.dist ∧ (endOf i w).len = w.state.len := by
  cases w with
  | done s => exact ⟨rfl, rfl⟩
  | raised e s => rcases endOf_raised i e s with ⟨_, h⟩ | ⟨_, h⟩ | ⟨_, _, _, h⟩ <;> simp [h]

/-- A command's work keeps `DIST` and `LEN`: they stand in no write set (30_encoding.md R89). -/
theorem workOf_dist_len (i : Instr) (s : State) :
    (workOf i s).state.dist = s.dist ∧ (workOf i s).state.len = s.len := by
  by_cases hi : i = .clear
  · subst hi; exact ⟨rfl, rfl⟩
  · exact ⟨(workOf_within i s hi).dist, (workOf_within i s hi).len⟩

theorem exec_keeps_dist_len {i : Instr} {s t : State} (h : exec i s = .next t) :
    t.dist = s.dist ∧ t.len = s.len := by
  rcases exec_cases i s t h with ⟨_, _, rfl⟩ | ⟨_, rfl⟩
  · exact ⟨rfl, rfl⟩
  · obtain ⟨hdist, hlen⟩ := endOf_dist_len i (workOf i s)
    obtain ⟨hdist', hlen'⟩ := workOf_dist_len i s
    exact ⟨hdist.trans hdist', hlen.trans hlen'⟩

/-- Settles O45: no command's work or end touches `DIST` or `LEN`; the rest is one register access each. -/
theorem distAndLenChangeOnlyByHostWrites : Obligations.DistAndLenChangeOnlyByHostWrites := by
  refine ⟨fun _ _ _ => exec_keeps_dist_len, fun s a v rest hb ha => ⟨fun h => ?_, fun h => ?_⟩,
    fun s a rest ha => ⟨fun h => ?_, fun h => ?_⟩, rfl, rfl⟩
  · exact ⟨_, step_registerWrite_idle hb ha h (r := some .dist) (by decide) (by decide) rfl, rfl, rfl⟩
  · exact ⟨_, step_registerWrite_idle hb ha h (r := some .len) (by decide) (by decide) rfl, rfl, rfl⟩
  · exact ⟨_, step_registerRead ha h (r := some .dist) (by decide) (by decide) rfl, by simp, by simp⟩
  · exact ⟨_, step_registerRead ha h (r := some .len) (by decide) (by decide) rfl, by simp, by simp⟩

/-- Settles O52: the register at offset 0 is `CMD`, whose idle write latches the word; a busy write is dropped. -/
theorem cmdWriteStartsACommand : Obligations.CmdWriteStartsACommand := by
  refine fun s a w rest ha => ⟨fun h hb => ?_, fun h hb => ?_, fun h => ?_⟩
  · refine ⟨_, step_registerWrite_idle hb ha h (r := some .cmd) (by decide) (by decide) rfl, ?_⟩
    simp [writeRegister, sameError, sameOperands, sameInput, sameOutput]
  · refine ⟨_, step_registerWrite_busy hb ha h (by decide) (by decide), ?_⟩
    simp [hb, sameError, sameOperands, sameInput, sameOutput]
  · exact ⟨_, step_registerRead ha h (r := some .cmd) (by decide) (by decide) rfl, by simp⟩

end Sys2Proof.Machine

/-! What the registers' offsets are, what a register write sets and keeps, and what a window read replies. -/

namespace Sys2Proof.Machine

section RegisterOffsets

variable {off : Nat}

theorem regOffset_lt (r : Reg) : regOffset r < 0x20 := by cases r <;> decide

/-- A register stands at its offset and at no other (20_memory.md R51). -/
theorem regAt_eq_some_iff {r : Reg} : regAt off = some r ↔ off = regOffset r := by
  constructor
  · unfold regAt
    split <;> rintro ⟨⟩ <;> rfl
  · rintro rfl
    cases r <;> rfl

/-- No register stands at the reserved offsets (20_memory.md R51). -/
theorem regAt_eq_none_of_reserved (h : 0x20 ≤ off) : regAt off = none := by
  refine Option.eq_none_iff_forall_ne_some.2 fun r hr => ?_
  have hlt := regOffset_lt r
  rw [← regAt_eq_some_iff.1 hr] at hlt
  omega

/-- A reserved offset reads 0, idle or busy (20_memory.md R56). -/
@[simp] theorem readRegister_none (s : State) : readRegister none s = 0#32 := by
  unfold readRegister; split <;> rfl

end RegisterOffsets

section RegisterWrites

variable (r : Option Reg) (v : Word) (s : State)

@[simp] theorem writeRegister_value :
    (writeRegister r v s).value = if r = some .value then v else s.value := by
  unfold writeRegister; split <;> rfl

@[simp] theorem writeRegister_dist :
    (writeRegister r v s).dist = if r = some .dist then v else s.dist := by
  unfold writeRegister; split <;> rfl

@[simp] theorem writeRegister_len :
    (writeRegister r v s).len = if r = some .len then v else s.len := by
  unfold writeRegister; split <;> rfl

/-- A register write changes neither the error fields nor the buffers, and gives no reply. -/
theorem writeRegister_frame : sameError s (writeRegister r v s) ∧ sameInput s (writeRegister r v s) ∧
    sameOutput s (writeRegister r v s) ∧ (writeRegister r v s).replies = s.replies := by
  unfold writeRegister
  split <;> simp [sameError, sameInput, sameOutput]

/-- Only a write of `CMD` hands the engine a word (10_state.md R25). -/
theorem writeRegister_engine (h : r ≠ some .cmd) :
    (writeRegister r v s).busy = s.busy ∧ (writeRegister r v s).cmd = s.cmd := by
  unfold writeRegister
  split
  · exact absurd rfl h
  all_goals exact ⟨rfl, rfl⟩

end RegisterWrites

section WindowReads

variable {s : State} {ag k : Nat} {addr : Addr} {b : Buffer} {rest : List HostEvent}

theorem drawnRead_idle (hb : s.busy = false) : drawnRead s = s := by simp [drawnRead, hb]

theorem readWindow_idle (hb : s.busy = false) :
    readWindow b k s = if k < lengthOf b s then (cellsOf b s).read k else 0x00#8 := by
  simp [readWindow, hb]

/-- A window's bytes lie in the window's own region (20_memory.md R50, R52, R53). -/
theorem regionOf_windowAddr (hk : k < 16777216) : regionOf (windowAddr b k) = .window b k := by
  cases b with
  | ibuf =>
    have ha : (windowAddr .ibuf k).toNat = 0x1000000 + k := by simp only [windowAddr, BitVec.toNat_ofNat]; omega
    rw [regionOf, ha, if_neg (by omega), if_pos (by omega), Nat.add_sub_cancel_left]
  | obuf =>
    have ha : (windowAddr .obuf k).toNat = 0x2000000 + k := by simp only [windowAddr, BitVec.toNat_ofNat]; omega
    rw [regionOf, ha, if_neg (by omega), if_neg (by omega), if_pos (by omega), Nat.add_sub_cancel_left]

/-- A 1-byte read in a window, idle or busy, replies what the window reads as before the access. -/
theorem step_windowRead (ha : admitted s ag) (h : hostNext s (.access ag (.read addr 1)) rest)
    (hw : regionOf addr = .window b k) :
    step s = .next (pushReply (.byte (readWindow b k (serve (some ag) (takeEvent rest s))))
      (drawnRead (serve (some ag) (takeEvent rest s)))) := by
  have hok : busErrorOf (.read addr 1) = none := by simp [busErrorOf, hw]
  rw [access_read _ _ _ _ _ ha h hok, readAt, hw]

/-- Either window while idle: the read replies the cell below the length and 0x00 beyond it, and only takes its turn. -/
theorem step_windowRead_idle (hb : s.busy = false) (ha : admitted s ag) (hk : k < 16777216)
    (h : hostNext s (.access ag (.read (windowAddr b k) 1)) rest) :
    step s = .next (pushReply (.byte (if k < lengthOf b s then (cellsOf b s).read k else 0x00#8))
      (serve (some ag) (takeEvent rest s))) := by
  have hb' : (serve (some ag) (takeEvent rest s)).busy = false := hb
  rw [step_windowRead ha h (regionOf_windowAddr hk), drawnRead_idle hb', readWindow_idle hb']
  cases b <;> rfl

end WindowReads

/-- Settles O50: each buffer's window read pushes its reply and otherwise only takes its turn. -/
theorem windowReadsGiveTheCells : Obligations.WindowReadsGiveTheCells := by
  refine fun s a k rest hb ha hk => ⟨fun h => ?_, fun h => ?_⟩
  · refine ⟨_, step_windowRead_idle (b := .ibuf) hb ha hk h, rfl, ?_⟩
    simp [hb, sameError, sameOperands, sameInput, sameOutput]
  · refine ⟨_, step_windowRead_idle (b := .obuf) hb ha hk h, rfl, ?_⟩
    simp [hb, sameError, sameOperands, sameInput, sameOutput]

/-- Settles O53: which register is written follows from its offset, and a reserved offset has none. -/
theorem registerWritesIdle : Obligations.RegisterWritesIdle := by
  refine fun s a addr v rest hb ha h40 h4 => ⟨fun h h0 => ?_, fun h hres => ?_⟩
  · have hcmd : regAt addr.toNat ≠ some .cmd := mt regAt_eq_some_iff.1 h0
    obtain ⟨herr, hin, hout, hrep⟩ := writeRegister_frame (regAt addr.toNat) v (serve (some a) (takeEvent rest s))
    obtain ⟨hbusy, hword⟩ := writeRegister_engine _ v (serve (some a) (takeEvent rest s)) hcmd
    refine ⟨_, step_registerWrite_idle hb ha h h40 h4 rfl, ?_, ?_, ?_, herr, hin, hout, hbusy.trans hb, hword, hrep⟩ <;>
      simp [regAt_eq_some_iff, regOffset]
  · exact ⟨_, step_registerRead ha h h40 h4 (regAt_eq_none_of_reserved hres), by simp⟩

/-- Settles O54: a write while busy only takes its turn. -/
theorem writesWhileBusyAreDropped : Obligations.WritesWhileBusyAreDropped := by
  refine fun s a addr v rest hb ha h40 h4 h => ⟨_, step_registerWrite_busy hb ha h h40 h4, ?_⟩
  simp [hb, sameError, sameOperands, sameInput, sameOutput]

end Sys2Proof.Machine

/-! What the decoder answers to a reserved opcode and to reserved bits, and what an illegal word does as a step. -/

namespace Sys2Proof.Machine

section CommandWords

/-- The opcode map has a command exactly for the opcodes 1 to 12 (30_encoding.md R87). -/
theorem decodeOp_eq_none_iff {op : Nat} : decodeOp op = none ↔ op = 0 ∨ 13 ≤ op := by
  constructor
  · intro h
    by_contra hop
    have hlo : 1 ≤ op := by omega
    have hhi : op ≤ 12 := by omega
    interval_cases op <;> cases h
  · rintro (rfl | h)
    · rfl
    · obtain ⟨n, rfl⟩ := Nat.exists_eq_add_of_le' h
      rfl

variable {w : Word}

theorem decodeWord_reservedOpcode (h : opField w = 0 ∨ 13 ≤ opField w) :
    decodeWord w = .illegal .reservedOpcode := by
  rw [decodeWord, decodeOp_eq_none_iff.2 h]

theorem decodeWord_reservedBits (hop : ¬(opField w = 0 ∨ 13 ≤ opField w)) (hbits : reservedField w ≠ 0) :
    decodeWord w = .illegal .reservedBits := by
  obtain ⟨i, hi⟩ := Option.ne_none_iff_exists'.1 (mt decodeOp_eq_none_iff.1 hop)
  simp [decodeWord, hi, hbits]

end CommandWords

/-- The error an illegal command word raises (30_encoding.md R88). -/
def errOfIllegal (e : DecodeError) : Err :=
  match e with
  | .reservedOpcode => .reservedOpcode
  | .reservedBits => .reservedBits

/-- With no error standing, an illegal word completes with its error recorded. -/
theorem step_illegal {s : State} {e : DecodeError} (h : engineNext s) (herr : s.err = false)
    (hw : decodeWord s.cmd = .illegal e) : step s = .next (complete (recordError (errOfIllegal e) s)) := by
  rw [step_engine s h, runCommand, hw]
  simp only [illegalCommand, performed_ok _ _ herr]
  cases e <;> rfl

/-- Recording an error and completing changes `STATUS` and empties the engine, and nothing else. -/
theorem complete_recordError_frame (e : Err) (s : State) :
    errorIs (complete (recordError e s)) (errCode e) (errCause e) ∧ idleEngine (complete (recordError e s)) ∧
      sameOperands s (complete (recordError e s)) ∧ sameInput s (complete (recordError e s)) ∧
      sameOutput s (complete (recordError e s)) ∧ sameOutside s (complete (recordError e s)) ∧
      (complete (recordError e s)).draws = s.draws := by
  simp [errorIs, idleEngine, sameOperands, sameInput, sameOutput, sameOutside]

/-- Settles O4: the reserved opcode is found before the reserved bits, and either error is only recorded. -/
theorem illegalWordChangesOnlyStatus : Obligations.IllegalWordChangesOnlyStatus := by
  intro s hnext herr hill
  by_cases hop : s.cmd.toNat % 16 = 0 ∨ 13 ≤ s.cmd.toNat % 16
  · refine ⟨_, step_illegal hnext herr (decodeWord_reservedOpcode hop), ?_⟩
    rw [if_pos hop]
    exact complete_recordError_frame .reservedOpcode s
  · have hbits : reservedField s.cmd ≠ 0 := (or_assoc.2 hill).resolve_left hop
    refine ⟨_, step_illegal hnext herr (decodeWord_reservedBits hop hbits), ?_⟩
    rw [if_neg hop]
    exact complete_recordError_frame .reservedBits s

/-- Settles O1: twelve rows of the map, and no row for a reserved opcode. -/
theorem opcodeMapDecodes : Obligations.OpcodeMapDecodes :=
  ⟨rfl, rfl, rfl, rfl, rfl, rfl, rfl, rfl, rfl, rfl, rfl, rfl, fun _ => decodeWord_reservedOpcode⟩

end Sys2Proof.Machine

/-! The digit alphabet, and how long an encoded value is. -/

namespace Sys2Proof.Machine

section Digits

variable {c : Byte}

/-- The four ranges of digit characters (30_encoding.md R71). -/
theorem isDigit_iff : isDigit c = true ↔
    (0x30 ≤ c.toNat ∧ c.toNat ≤ 0x39) ∨ (0x61 ≤ c.toNat ∧ c.toNat ≤ 0x7A) ∨ (0x41 ≤ c.toNat ∧ c.toNat ≤ 0x5A) ∨
      c = 0x3A#8 ∨ c = 0x3B#8 := by
  simp [isDigit, BitVec.toNat_eq, or_assoc]

@[simp] theorem chr_toNat : chr c.toNat = c := by simp [chr]

theorem digval_decimal (hlo : 0x30 ≤ c.toNat) (hhi : c.toNat ≤ 0x39) : digval c = c.toNat - 0x30 := by
  rw [digval, if_neg (by omega), if_neg (by omega), if_pos (by omega)]

theorem digval_upper (hlo : 0x41 ≤ c.toNat) (hhi : c.toNat ≤ 0x5A) : digval c = c.toNat - 0x41 + 36 := by
  rw [digval, if_neg (by omega), if_neg (by omega), if_neg (by omega), if_pos (by omega)]

theorem digval_lower (hlo : 0x61 ≤ c.toNat) : digval c = c.toNat - 0x61 + 10 := by
  rw [digval, if_neg (by omega), if_neg (by omega), if_neg (by omega), if_neg (by omega)]

/-- Range by range, the digit of a digit character's value is the character. -/
theorem digit_digval (h : isDigit c = true) : digit (digval c) = c := by
  rcases isDigit_iff.1 h with ⟨hlo, hhi⟩ | ⟨hlo, hhi⟩ | ⟨hlo, hhi⟩ | rfl | rfl
  · rw [digval_decimal hlo hhi, digit, if_pos (by omega), Nat.add_sub_of_le hlo, chr_toNat]
  · rw [digval_lower hlo, digit, if_neg (by omega), if_pos (by omega),
      show 0x61 + (c.toNat - 0x61 + 10) - 10 = c.toNat by omega, chr_toNat]
  · rw [digval_upper hlo hhi, digit, if_neg (by omega), if_neg (by omega), if_pos (by omega),
      show 0x41 + (c.toNat - 0x41 + 36) - 36 = c.toNat by omega, chr_toNat]
  · rfl
  · rfl

end Digits

/-- Settles O18: `isDigit_digit` and `digit_digval` are the two directions of the bijection. -/
theorem digitsAreABijection : Obligations.DigitsAreABijection := by
  refine ⟨fun _ => rfl, fun _ => isDigit_iff, fun v => ?_, fun c h => ⟨digval_lt c h, digit_digval h⟩⟩
  obtain ⟨hdigit, hval, -, -⟩ := isDigit_digit v.val v.isLt
  exact ⟨hdigit, hval⟩

/-- Settles O20: the length of each form the encoder chooses from. -/
theorem encodedLengthLaw : Obligations.EncodedLengthLaw := by
  intro v
  simp only [encodeValue, apply_ite List.length, List.length_cons, List.length_nil]

end Sys2Proof.Machine

/-! What a command's end leaves alone, and the buffer commands. -/

namespace Sys2Proof.Machine

section CommandFrame

/-- `t` is `s` with the engine idle, but for the elements of a write set, the error fields and the draws. -/
structure EndsWithin (ws : List Element) (s t : State) : Prop where
  idle : idleEngine t
  outside : sameOutside s t
  dist : t.dist = s.dist
  len : t.len = s.len
  value : Element.value ∉ ws → t.value = s.value
  ibuf : Element.ibuf ∉ ws → t.ibuf = s.ibuf
  ilen : Element.ilen ∉ ws → t.ilen = s.ilen
  icur : Element.icur ∉ ws → t.icur = s.icur
  obuf : Element.obuf ∉ ws → t.obuf = s.obuf
  olen : Element.olen ∉ ws → t.olen = s.olen

variable {ws : List Element} {s t u : State}

theorem Within.endsWithin_complete (h : Within ws s u) : EndsWithin ws s (complete u) :=
  ⟨⟨rfl, rfl, rfl⟩, ⟨h.allocMayFail, h.agent, h.host, h.replies⟩, h.dist, h.len, h.value, h.ibuf, h.ilen, h.icur,
    h.obuf, h.olen⟩

theorem Within.endsWithin_recordError (h : Within ws s u) (e : Err) :
    EndsWithin ws s (complete (recordError e u)) :=
  ⟨⟨rfl, rfl, rfl⟩, ⟨h.allocMayFail, h.agent, h.host, h.replies⟩, h.dist, h.len, h.value, h.ibuf, h.ilen, h.icur,
    h.obuf, h.olen⟩

theorem EndsWithin.sameOperands (h : EndsWithin ws s t) (hv : Element.value ∉ ws) : sameOperands s t :=
  ⟨h.value hv, h.dist, h.len⟩

theorem EndsWithin.sameInput (h : EndsWithin ws s t) (hb : Element.ibuf ∉ ws) (hl : Element.ilen ∉ ws)
    (hc : Element.icur ∉ ws) : sameInput s t :=
  ⟨h.ibuf hb, h.ilen hl, h.icur hc⟩

theorem EndsWithin.sameOutput (h : EndsWithin ws s t) (hb : Element.obuf ∉ ws) (hl : Element.olen ∉ ws) :
    sameOutput s t :=
  ⟨h.obuf hb, h.olen hl⟩

theorem advanceDraws_within (ws : List Element) (n : Nat) (s : State) : Within ws s (advanceDraws n s) := by
  constructor <;> simp

/-- A command's work and its end, an error's unspecified elements included, stay within the write set (R89, R243). -/
theorem endOf_endsWithin (i : Instr) (s : State) (hi : i ≠ .clear) :
    EndsWithin (writeSet i) s (endOf i (workOf i s)) := by
  have h := workOf_within i s hi
  cases hw : workOf i s with
  | done u =>
    rw [hw] at h
    exact h.endsWithin_complete
  | raised e u =>
    rw [hw] at h
    rcases endOf_raised i e u with ⟨_, he⟩ | ⟨_, he⟩ | ⟨_, _, _, he⟩ <;> rw [he]
    · exact h.endsWithin_recordError e
    · exact (h.trans (unspecify_within _ u)).endsWithin_recordError e
    · exact (h.trans (advanceDraws_within _ 1 u)).endsWithin_recordError e

end CommandFrame

section Appends

/-- The command that appends `VALUE[7:0]` to a buffer (42_buffer.md R142, R143). -/
def appendCommand (b : Buffer) : Instr :=
  match b with
  | .ibuf => .iappend
  | .obuf => .oappend

theorem workOf_appendCommand (b : Buffer) (s : State) :
    workOf (appendCommand b) s = append b (s.value.setWidth 8) s := by cases b <;> rfl

variable (b : Buffer) (s : State)

@[simp] theorem cellsOf_complete : cellsOf b (complete s) = cellsOf b s := by cases b <;> rfl

@[simp] theorem lengthOf_complete : lengthOf b (complete s) = lengthOf b s := by cases b <;> rfl

@[simp] theorem textOf_complete : textOf b (complete s) = textOf b s := by cases b <;> rfl

/-- An append command on either buffer: a discarded character, a stored one, or a full buffer. -/
theorem exec_appendCommand (herr : s.err = false) (ha : s.allocMayFail = false) :
    ∃ t, exec (appendCommand b) s = .next t ∧ EndsWithin (writeSet (appendCommand b)) s t ∧
      (if keep (s.value.setWidth 8) = false then
         (cellsOf b t = cellsOf b s ∧ lengthOf b t = lengthOf b s) ∧ sameError s t
       else if lengthOf b s < Config.cap then
         textOf b t = textOf b s ++ [s.value.setWidth 8] ∧ lengthOf b t = lengthOf b s + 1 ∧ sameError s t ∧
         sameCellsOutside (cellsOf b s) (cellsOf b t) (lengthOf b s) (lengthOf b s + 1)
       else errorIs t 3#4 0#4) := by
  refine ⟨_, exec_eq _ s (.inl herr), endOf_endsWithin _ s (by cases b <;> decide), ?_⟩
  rw [workOf_appendCommand]
  rcases append_cases b (s.value.setWidth 8) s with ⟨hk, h⟩ | ⟨hk, hl, h⟩ | ⟨_, _, hr, _⟩ | ⟨hk, hl, _, h⟩
  · rw [h, if_pos hk]
    exact ⟨⟨cellsOf_complete b s, lengthOf_complete b s⟩, rfl, rfl, rfl⟩
  · rw [h, if_neg (by simp [hk]), if_neg (by omega)]
    cases b <;> exact ⟨rfl, rfl, rfl⟩
  · rw [allocRefused_of_never s ha] at hr
    cases hr
  · rw [h, if_neg (by simp [hk]), if_pos hl, allocAsked_of_never s ha]
    obtain ⟨hcells, -⟩ := append_cells b (s.value.setWidth 8) s _ (append_kept b _ s hk hl ha)
    refine ⟨textOf_storeChar b _ s (ne_zero_of_keep hk), lengthOf_storeChar b _ s, ?_, ?_⟩
    · cases b <;> exact ⟨rfl, rfl, rfl⟩
    · cases b <;> exact hcells

end Appends

/-- Settles O10: an append command on `IBUF`. -/
theorem iappendStoresOrDiscards : Obligations.IappendStoresOrDiscards := by
  intro s herr ha
  obtain ⟨t, hexec, hends, hcases⟩ := exec_appendCommand .ibuf s herr ha
  have hcur : t.icur = s.icur := hends.icur (by decide)
  refine ⟨t, hexec, hends.idle, hends.sameOperands (by decide), hends.sameOutput (by decide) (by decide),
    hends.outside, hcur, ?_⟩
  by_cases hk : keep (s.value.setWidth 8) = false
  · rw [if_pos hk] at hcases
    obtain ⟨⟨hcells, hlen⟩, hsame⟩ := hcases
    rw [if_pos hk]
    exact ⟨⟨hcells, hlen, hcur⟩, hsame⟩
  · rw [if_neg hk] at hcases ⊢
    exact hcases

/-- Settles O11: an append command on `OBUF`. -/
theorem oappendStoresOrDiscards : Obligations.OappendStoresOrDiscards := by
  intro s herr ha
  obtain ⟨t, hexec, hends, hcases⟩ := exec_appendCommand .obuf s herr ha
  exact ⟨t, hexec, hends.idle, hends.sameOperands (by decide), hends.sameInput (by decide) (by decide) (by decide),
    hends.outside, hcases⟩

section Reads

variable {s : State}

/-- Below the end the unread text begins with the character at the cursor. -/
theorem unread_cons (h : s.icur < s.ilen) :
    unread s = s.ibuf.read s.icur :: s.ibuf.slice (s.icur + 1) (s.ilen - (s.icur + 1)) := by
  rw [unread, show s.ilen - s.icur = s.ilen - (s.icur + 1) + 1 by omega, Memory.slice]

theorem unread_nil (h : s.ilen ≤ s.icur) : unread s = [] := by
  rw [unread, Nat.sub_eq_zero_of_le h, Memory.slice_zero]

/-- CONSUME below the end: the character goes to `VALUE` and the cursor moves past it (R145). -/
theorem workOf_consume_inside (h : s.icur < s.ilen) :
    workOf .consume s = .done (setValue (zextChar (s.ibuf.read s.icur)) (setCursor (s.icur + 1) s)) := by
  have hcur : s.ilen - (s.ilen - (s.icur + 1)) = s.icur + 1 := by omega
  simp [workOf, unread_cons h, nextChar, parsedChar, readToValue, cursorAt, hcur]

/-- CONSUME at the end: TRUNCATED (R145). -/
theorem workOf_consume_end (h : s.ilen ≤ s.icur) : workOf .consume s = .raised .truncated s := by
  rw [workOf, unread_nil h]
  rfl

/-- An unspecified cursor stays at most the length where the length is kept (R243). -/
theorem unspecify_icur_le (ws : List Element) (s : State) (hc : inSet .icur ws = true) :
    (unspecify ws s).icur ≤ (unspecify ws s).ilen := by
  rw [unspecify_icur, unspecify_ilen, unspecIcur, if_pos hc]
  exact freeCursor_le _ _

end Reads

/-- Settles O13: the frame is CONSUME's write set, and the unread text has a first character or is empty. -/
theorem consumeAdvancesOrIsTruncated : Obligations.ConsumeAdvancesOrIsTruncated := by
  intro s herr _
  have hends := endOf_endsWithin .consume s (by decide)
  refine ⟨_, exec_eq .consume s (.inl herr), hends.dist, hends.len, hends.ibuf (by decide), hends.ilen (by decide),
    hends.sameOutput (by decide) (by decide), hends.outside, hends.idle, ?_⟩
  by_cases h : s.icur < s.ilen
  · rw [if_pos h, workOf_consume_inside h]
    exact ⟨rfl, rfl, ⟨rfl, rfl, rfl⟩, rfl⟩
  · rw [if_neg h, workOf_consume_end (by omega)]
    exact ⟨⟨rfl, rfl, rfl⟩, unspecify_icur_le (writeSet .consume) s rfl⟩

/-- Settles O16: the back-reference is valid and fits, so it expands, each new cell reading as the one `DIST` before. -/
theorem expandRepeatsWithPeriod : Obligations.ExpandRepeatsWithPeriod := by
  intro s herr ha hkept hd hl hdo hcap
  obtain ⟨t, hdone, hlen, hrest, -, hread, hcells, -⟩ := expand_ok s.dist.toNat s.len.toNat s hkept hd hdo hcap ha
  have hwork : workOf .expand s = .done t := by
    rw [workOf, backref, if_neg (by omega), if_neg (by omega), hdone]
  obtain ⟨-, he, hec, hca, -⟩ := hrest.fields
  refine ⟨complete t, by rw [exec_eq .expand s (.inl herr), hwork]; rfl, ⟨he, hec, hca⟩, ?_⟩
  rw [textOf_complete]
  exact expand_text _ _ s t hd hdo hlen hread hcells

/-- Settles O17: `IBUF` holds `OBUF`'s text, stored from cell 0 on. -/
theorem xferMovesTheText : Obligations.XferMovesTheText := by
  intro s herr hwf
  have hlen : (textOf .obuf s).length = s.olen := textOf_length .obuf s
  have htext : (s.ibuf.storeText 0 (textOf .obuf s)).slice 0 s.olen = textOf .obuf s := by
    simpa only [hlen] using Memory.slice_storeText s.ibuf 0 (textOf .obuf s) hwf
  have hcells : sameCellsOutside s.ibuf (s.ibuf.storeText 0 (textOf .obuf s)) 0 s.olen :=
    fun a h => Memory.read_storeText_outside _ _ _ _ (by omega)
  have hends := endOf_endsWithin .xfer s (by decide)
  exact ⟨_, exec_eq .xfer s (.inl herr), htext, rfl, rfl, rfl, rfl, hcells, hends.sameOperands (by decide),
    ⟨rfl, rfl, rfl⟩, hends.outside, hends.idle, rfl⟩

/-- Settles O9: CLEAR's work is done whether or not an error stands. -/
theorem clearEmptiesAndRecovers : Obligations.ClearEmptiesAndRecovers := by
  refine fun s => ⟨_, exec_eq .clear s (.inr rfl), ?_⟩
  simp [workOf, endOf, idleEngine, sameOperands, sameOutside]

/-- A command that only answers in `VALUE` leaves all else as it was. -/
theorem complete_setValue_frame (v : Word) (s : State) :
    (complete (setValue v s)).dist = s.dist ∧ (complete (setValue v s)).len = s.len ∧
      sameInput s (complete (setValue v s)) ∧ sameOutput s (complete (setValue v s)) ∧
      sameError s (complete (setValue v s)) ∧ sameOutside s (complete (setValue v s)) ∧
      idleEngine (complete (setValue v s)) ∧ (complete (setValue v s)).draws = s.draws := by
  simp [sameInput, sameOutput, sameError, sameOutside, idleEngine]

/-- Settles O12: PEEK's work sets `VALUE` and nothing else. -/
theorem peekGivesTheNextCharacter : Obligations.PeekGivesTheNextCharacter :=
  fun s herr => ⟨_, exec_eq .peek s (.inl herr), rfl, complete_setValue_frame _ s⟩

/-- Settles O14: ATEND's work sets `VALUE` and nothing else. -/
theorem atendAnswersInValue : Obligations.AtendAnswersInValue :=
  fun s herr => ⟨_, exec_eq .atend s (.inl herr), rfl, complete_setValue_frame _ s⟩

end Sys2Proof.Machine

/-! The compressor: the length of a match, the best match, a round of the loop. -/

namespace Sys2Proof.Machine

section CommonLength

variable {x y : List Byte} {c : Byte}

theorem commonLength_le_right : commonLength x y ≤ y.length := by
  fun_induction commonLength x y with
  | case1 a x y ih => exact Nat.succ_le_succ ih
  | case2 | case3 | case4 => exact Nat.zero_le _

/-- Two texts agree on their common beginning. -/
theorem getD_eq_of_lt_commonLength {k : Nat} (hk : k < commonLength x y) : x.getD k c = y.getD k c := by
  fun_induction commonLength x y generalizing k with
  | case1 a x y ih =>
    cases k with
    | zero => rfl
    | succ k => exact ih (by omega)
  | case2 | case3 | case4 => omega

/-- A beginning on which two texts agree is part of their common one. -/
theorem le_commonLength {l : Nat} (hx : l ≤ x.length) (hy : l ≤ y.length)
    (h : ∀ k, k < l → x.getD k c = y.getD k c) : l ≤ commonLength x y := by
  fun_induction commonLength x y generalizing l with
  | case1 a x y ih =>
    cases l with
    | zero => omega
    | succ l =>
      have := ih (by simpa using hx) (by simpa using hy) fun k hk => h (k + 1) (by omega)
      omega
  | case2 a x b y hab =>
    cases l with
    | zero => omega
    | succ l => exact absurd (h 0 (by omega)) hab
  | case3 => exact hx
  | case4 => exact hy

end CommonLength

/-- A match of a position inside the text ends inside the text. -/
theorem add_matchLen_le {s : List Byte} {i : Nat} (j : Nat) (hi : i ≤ s.length) : i + matchLen s j i ≤ s.length := by
  have : matchLen s j i ≤ (s.drop i).length := commonLength_le_right
  rw [List.length_drop] at this
  omega

/-- Settles O27: the common beginning of the two rests of the text, read back at their positions. -/
theorem matchLenIsTheLargest : Obligations.MatchLenIsTheLargest := by
  intro s j i hji hi
  refine ⟨add_matchLen_le j (by omega), fun k hk => ?_, fun l hl h => ?_⟩
  · simpa using getD_eq_of_lt_commonLength (c := 0#8) hk
  · refine le_commonLength (c := 0#8) ?_ ?_ fun k hk => by simpa using h k hk
    · rw [List.length_drop]; omega
    · rw [List.length_drop]; omega

section BestMatch

/-- `m` is the best of the matches at the distances from 1 to below `n` (R183): it is none or one of them of length
4 at least, and no candidate of that length is longer, nor as long and nearer. -/
structure BestBelow (s : List Byte) (i n : Nat) (m : Match) : Prop where
  found : m.len ≠ 0 → 4 ≤ m.len ∧ 1 ≤ m.dist ∧ m.dist < n ∧ m.len = matchLen s (i - m.dist) i
  best : ∀ d, 1 ≤ d → d < n → 4 ≤ matchLen s (i - d) i →
    matchLen s (i - d) i < m.len ∨ matchLen s (i - d) i = m.len ∧ m.dist ≤ d

variable {s : List Byte} {i d : Nat} {m : Match}

theorem bestBelow_one (s : List Byte) (i : Nat) : BestBelow s i 1 ⟨0, 0⟩ :=
  ⟨fun h => absurd rfl h, fun d _ _ => by omega⟩

/-- A candidate that is considered replaces the best so far only where it is longer. -/
theorem BestBelow.consider (h : BestBelow s i d m) (hd : 1 ≤ d) : BestBelow s i (d + 1) (consider s i m d) := by
  obtain ⟨found, best⟩ := h
  unfold Machine.consider
  split
  next hnew =>
    obtain ⟨hlen, hlonger⟩ := hnew
    refine ⟨fun _ => ⟨hlen, hd, Nat.lt_succ_self d, rfl⟩, fun e he hed h4 => ?_⟩
    rcases Nat.lt_succ_iff_lt_or_eq.mp hed with hlt | rfl
    · have := best e he hlt h4
      exact .inl (lt_of_le_of_lt (by omega) hlonger)
    · exact .inr ⟨rfl, le_rfl⟩
  next hold =>
    refine ⟨fun hm => ?_, fun e he hed h4 => ?_⟩
    · obtain ⟨hlen, hpos, hlt, heq⟩ := found hm
      exact ⟨hlen, hpos, by omega, heq⟩
    · rcases Nat.lt_succ_iff_lt_or_eq.mp hed with hlt | rfl
      · exact best e he hlt h4
      · have hle : matchLen s (i - e) i ≤ m.len := not_lt.mp fun hlt => hold ⟨h4, hlt⟩
        obtain ⟨-, -, hlt, -⟩ := found (by omega)
        omega

theorem BestBelow.searchFrom {n : Nat} (h : BestBelow s i d m) (hd : 1 ≤ d) :
    BestBelow s i (d + n) (searchFrom s i n d m) := by
  induction n generalizing d m with
  | zero => exact h
  | succ n ih =>
    rw [Machine.searchFrom, show d + (n + 1) = d + 1 + n by omega]
    exact ih (h.consider hd) (by omega)

/-- The search tries every distance from 1 to `min(i, 4095)`. -/
theorem bestMatch_bestBelow (s : List Byte) (i : Nat) : BestBelow s i (1 + min i 4095) (bestMatch s i) :=
  (bestBelow_one s i).searchFrom le_rfl

end BestMatch

/-- Settles O28: `bestMatch_bestBelow`, by whether a match was found. -/
theorem bestMatchIsLongestThenNearest : Obligations.BestMatchIsLongestThenNearest := by
  intro s i
  obtain ⟨found, best⟩ := bestMatch_bestBelow s i
  by_cases h0 : (bestMatch s i).len = 0
  · refine .inl ⟨h0, fun d h1 hi h4095 => ?_⟩
    have := best d h1 (by omega)
    omega
  · obtain ⟨hlen, hpos, hlt, heq⟩ := found h0
    refine .inr ⟨hlen, hpos, by omega, by omega, heq, fun d h1 hi h4095 => ?_⟩
    have := best d h1 (by omega)
    omega

section Tokens

variable {m : Match}

theorem isLiteral_iff : isLiteral m = true ↔ m.len = 0 ∨ (m.len = 4 ∧ 64 ≤ m.dist) := by
  rw [show (64 : Nat) = Config.nearDist from rfl]
  simp [isLiteral]

theorem tokenOf_near (h : m.dist < 64) : tokenOf m = 0x3F#8 :: digit m.dist :: encodeValue m.len := by
  have hdist : encodeValue m.dist = [digit m.dist] := if_pos h
  rw [tokenOf, Config.nearDist, if_pos h, hdist]
  rfl

theorem tokenOf_far (h : ¬ m.dist < 64) :
    tokenOf m = 0x40#8 :: digit (m.dist / 64) :: digit (m.dist % 64) :: encodeValue m.len := if_neg h

end Tokens

/-- One round of the loop; with enough fuel it does not matter that the round takes some. -/
theorem deflateFrom_eq (s : List Byte) (fuel i : Nat) (hfuel : s.length - i ≤ fuel) :
    deflateFrom s fuel i =
      if i + 4 ≤ s.length then
        if isLiteral (bestMatch s i) then s.getD i 0#8 :: deflateFrom s fuel (i + 1)
        else tokenOf (bestMatch s i) ++ deflateFrom s fuel (i + (bestMatch s i).len)
      else s.drop i := by
  rw [deflateFrom_fuel s fuel (fuel + 1) i hfuel (by omega), deflateFrom]

/-- Settles O59: one round of the loop, its tokens written out, and what `bestMatch_bestBelow` says of a match. -/
theorem compressorFollowsItsLoop : Obligations.CompressorFollowsItsLoop := by
  refine ⟨fun s => rfl, fun s fuel i hfuel => ?_, fun s i hmatch => ?_⟩
  · rw [deflateFrom_eq s fuel i hfuel]
    simp only [isLiteral_iff]
    by_cases hnear : (bestMatch s i).dist < 64
    · rw [tokenOf_near hnear, if_pos hnear]
      rfl
    · rw [tokenOf_far hnear, if_neg hnear]
      rfl
  · obtain ⟨hlen, hpos, hlt, -⟩ := (bestMatch_bestBelow s i).found (by omega)
    omega

/-- Settles O29: at position 0 fewer than 4 characters are left. -/
theorem shortInputIsUnchanged : Obligations.ShortInputIsUnchanged := by
  intro s h
  rw [deflate, deflateFrom_eq s s.length 0 (by omega), if_neg (by omega), List.drop_zero]

end Sys2Proof.Machine

/-! The sticky error: which words the engine still performs while `ERR` = 1, and what the others' step does. -/

namespace Sys2Proof.Machine

section StickyError

/-- The opcode a row of the map stands at is the number of its command's word (30_encoding.md R87). -/
theorem eq_encode_of_decodeOp {op : Nat} {i : Instr} (h : decodeOp op = some i) : op = (encode i).toNat := by
  unfold decodeOp at h
  split at h <;> cases h <;> rfl

/-- A word that decodes to a command is that command's one word: with the reserved bits 0 it is its opcode. -/
theorem eq_encode_of_decodeWord {w : Word} {i : Instr} (h : decodeWord w = .command i) : w = encode i := by
  unfold decodeWord at h
  split at h
  · cases h
  · rename_i hop
    split at h
    · rename_i hbits
      cases h
      have hlow : w.toNat % 16 = (encode i).toNat := eq_encode_of_decodeOp hop
      have hhigh : w.toNat / 16 = 0 := hbits
      exact BitVec.eq_of_toNat_eq (by omega)
    · cases h

variable {s : State}

/-- While an error stands the engine only completes any word but CLEAR's, legal or not (60_exceptions.md R244). -/
theorem step_sticky (h : engineNext s) (herr : s.err = true) (hw : s.cmd ≠ encode .clear) :
    step s = .next (complete s) := by
  rw [step_engine s h, runCommand]
  cases hd : decodeWord s.cmd with
  | command i =>
    refine exec_sticky i s herr ?_
    rintro rfl
    exact hw (eq_encode_of_decodeWord hd)
  | illegal e => exact performed_err _ s herr

/-- CLEAR's word is performed also while an error stands. -/
theorem step_clear (h : engineNext s) (hw : s.cmd = encode .clear) : step s = exec .clear s := by
  rw [step_engine s h, runCommand, hw]
  rfl

/-- A word the engine ignores lets no host access pass: latched, it has the engine's turn at once. -/
theorem engineNext_latch {w : Word} (hs : statusLegal s = true) (herr : s.err = true) (hw : w ≠ encode .clear) :
    engineNext (latch w s) :=
  ⟨hs, rfl, .inl (waitOf_ignored w s herr hw)⟩

end StickyError

/-- Settles O38: a word but CLEAR's only completes, also right after its `CMD` write; CLEAR and reset end the error. -/
theorem errorIsStickyUntilClear : Obligations.ErrorIsStickyUntilClear := by
  refine ⟨fun s h herr hw => ?_, fun s h _ hw => ?_, fun s a w rest herr hb hw ha h => ?_, fun s rest h => ?_⟩
  · refine ⟨_, step_sticky h herr hw, ?_⟩
    simp [idleEngine, sameOperands, sameInput, sameOutput, sameError, sameOutside]
  · obtain ⟨t, hexec, hilen, hicur, holen, herr, hecode, hcause, -⟩ := clearEmptiesAndRecovers s
    exact ⟨t, (step_clear h hw).trans hexec, herr, hecode, hcause, hilen, hicur, holen⟩
  · have hwrite : step s = .next (latch w (serve (some a) (takeEvent rest s))) :=
      step_registerWrite_idle hb ha h (r := some .cmd) (by decide) (by decide) rfl
    obtain ⟨hlegal, -⟩ := h
    have hnext : engineNext (latch w (serve (some a) (takeEvent rest s))) := engineNext_latch hlegal herr hw
    refine ⟨_, _, hwrite, step_sticky hnext herr hw, ?_⟩
    simp [idleEngine, sameOperands, sameInput, sameOutput, sameError]
  · exact ⟨_, step_host s .reset rest h, rfl⟩

end Sys2Proof.Machine

/-! The reset values, and the reset input's step. -/

namespace Sys2Proof.Machine

/-- A buffer of length 0 holds no character, whatever its cells are (70_reset_and_hazards.md R270). -/
theorem textOf_eq_nil {b : Buffer} {s : State} (h : lengthOf b s = 0) : textOf b s = [] :=
  List.eq_nil_of_length_eq_zero ((textOf_length b s).trans h)

/-- Settles O6: each element's reset value, and `textOf_eq_nil` for the two buffers. -/
theorem resetValuesOfTheBlock : Obligations.ResetValuesOfTheBlock :=
  ⟨rfl, rfl, rfl, rfl, rfl, rfl, rfl, rfl, rfl, rfl, textOf_eq_nil rfl, textOf_eq_nil rfl⟩

/-- Settles O7: the step is `resetBlock`, whose elements are those of `State.reset`, busy or not before. -/
theorem resetInputAbandonsTheCommand : Obligations.ResetInputAbandonsTheCommand := by
  intro s rest h
  have hstep : step s = .next (resetBlock (takeEvent rest s)) := step_host s .reset rest h
  obtain ⟨hbusy, hvalues⟩ := resetValuesOfTheBlock
  exact ⟨_, hstep, ⟨hbusy, rfl, rfl⟩, hvalues⟩

end Sys2Proof.Machine

/-! A command's own word as a step, an idle block's step, and a step that is refused. -/

namespace Sys2Proof.Machine

/-- Row by row of the opcode map, the word of a command decodes to it (30_encoding.md R87). -/
theorem decodeWord_encode (i : Instr) : decodeWord (encode i) = .command i := by cases i <;> rfl

theorem wordWellFormed_encode (i : Instr) : wordWellFormed (encode i) = true := by cases i <;> rfl

/-- Settles O2: the word of each row of the map is well formed and decodes to the row's command. -/
theorem decodeOfEncodeIsTheCommand : Obligations.DecodeOfEncodeIsTheCommand :=
  fun i _ => ⟨wordWellFormed_encode i, decodeWord_encode i⟩

/-- Settles O3: `eq_encode_of_decodeWord`, the other direction of `decodeWord_encode`. -/
theorem onlyItsOwnWordDecodesToACommand : Obligations.OnlyItsOwnWordDecodesToACommand :=
  fun _ _ => eq_encode_of_decodeWord

section Turns

variable {s : State} {i : Instr}

/-- Where the engine moves next, a latched command word is executed. -/
theorem step_command (h : engineNext s) (hw : decodeWord s.cmd = .command i) : step s = exec i s := by
  rw [step_engine s h, runCommand, hw]

/-- The numbered word of a command is its word. -/
theorem tableWord_encode (i : Instr) : tableWord 32 (encode i).toNat = encode i := by
  rw [tableWord, Nat.mod_eq_of_lt (encode i).isLt, BitVec.ofNat_toNat, BitVec.setWidth_eq]

/-- With no command running and no event to come, the step changes nothing (70_reset_and_hazards.md R272). -/
theorem step_waiting (hlegal : statusLegal s = true) (hb : s.busy = false) (hh : s.host = []) : step s = .next s := by
  simp [step, nextEvent, engineTurn, hostTurn, hlegal, hb, hh]

end Turns

/-- Settles O5: `step_command`, also at the state `withFetchWord` makes, where the engine moves next. -/
theorem stepRunsTheDecodedCommand : Obligations.StepRunsTheDecodedCommand := by
  refine ⟨fun s i => step_command, fun s i hlegal => ?_⟩
  rw [State.withFetchWord, tableWord_encode]
  exact step_command ⟨hlegal, rfl, .inl rfl⟩ (decodeWord_encode i)

/-- Settles O8: `step_waiting`. -/
theorem idleBlockWaits : Obligations.IdleBlockWaits := fun _ => step_waiting

/-- Settles O57: the access is the host's event, and the agent is asked for before the address is looked at. -/
theorem interleavedAgentsAreRefused : Obligations.InterleavedAgentsAreRefused := by
  intro s a b op rest hserved hne h
  have hserved' : (takeEvent rest s).agent = some a := hserved
  rw [step_host s _ rest h, hostEvent, admitAgent, hserved']
  exact if_neg hne.symm

end Sys2Proof.Machine

/-! The bus: which accesses get a bus error, what a read replies and leaves alone, and the poll. -/

namespace Sys2Proof.Machine

/-- The state after a read: the access has its turn, the draw of a busy read is made, the reply is pushed. -/
def afterRead (r : Reply) (ag : Nat) (rest : List HostEvent) (s : State) : State :=
  pushReply r (drawnRead (serve (some ag) (takeEvent rest s)))

section ReadFrame

variable (r : Reply) (ag : Nat) (rest : List HostEvent) (s : State)

/-- A busy read's draw changes the draw counter only. -/
theorem drawnRead_eq : drawnRead s = { s with draws := (drawnRead s).draws } := by
  unfold drawnRead; split <;> rfl

theorem afterRead_replies : (afterRead r ag rest s).replies = r :: s.replies := by simp [afterRead]

/-- A read leaves the block's own state alone (20_memory.md R51 to R53, R61). -/
theorem afterRead_block : sameError s (afterRead r ag rest s) ∧ sameOperands s (afterRead r ag rest s) ∧
    sameInput s (afterRead r ag rest s) ∧ sameOutput s (afterRead r ag rest s) := by
  rw [afterRead, drawnRead_eq]
  simp [sameError, sameOperands, sameInput, sameOutput]

/-- A read takes one event and lets a running command go on. -/
theorem afterRead_turn : (afterRead r ag rest s).busy = s.busy ∧ (afterRead r ag rest s).cmd = s.cmd ∧
    (afterRead r ag rest s).host = rest ∧ (afterRead r ag rest s).wait = s.wait - 1 := by
  rw [afterRead, drawnRead_eq]
  simp

end ReadFrame

section RegisterReads

variable {s : State}

theorem readRegister_idle (hb : s.busy = false) (r : Option Reg) : readRegister r s = idleRead r s := by
  simp [readRegister, hb]

/-- Bit 0 of what a read of `STATUS` replies is `BUSY`, whatever a busy read's other bits are (R24, R61). -/
theorem readRegister_status_busy (s : State) : (readRegister (some .status) s).getLsbD 0 = s.busy := by
  cases hb : s.busy with
  | true => simp [readRegister, hb, busyRead]
  | false => simp [readRegister_idle hb, idleRead, statusWord, hb]

end RegisterReads

/-- Settles O48: the read replies `statusWord`, whose number is the sum of its fields. -/
theorem statusReadComposesItsFields : Obligations.StatusReadComposesItsFields := by
  intro s a rest hb ha h
  obtain ⟨herr, hop, hin, hout⟩ := afterRead_block (.word (readRegister (some .status) s)) a rest s
  obtain ⟨hbusy, -⟩ := afterRead_turn (.word (readRegister (some .status) s)) a rest s
  refine ⟨_, _, step_registerRead ha h (r := some .status) (by decide) (by decide) rfl, afterRead_replies _ a rest s,
    ?_, herr, hop, hin, hout, hbusy.trans hb⟩
  rw [readRegister_idle hb, idleRead, statusWord_toNat, hb]
  simp

/-- Settles O49: the register at each offset, and none at a reserved one; every read is an `afterRead`. -/
theorem registerReadsReturnTheRegisters : Obligations.RegisterReadsReturnTheRegisters := by
  intro s a addr rest hb ha h40 h4 hstatus h
  obtain ⟨herr, hop, hin, hout⟩ := afterRead_block (.word (readRegister (regAt addr.toNat) s)) a rest s
  obtain ⟨hbusy, hcmd, hhost, -⟩ := afterRead_turn (.word (readRegister (regAt addr.toNat) s)) a rest s
  refine ⟨_, _, step_registerRead ha h h40 h4 rfl, afterRead_replies _ a rest s, ?_, herr, hop, hin, hout,
    hbusy.trans hb, hcmd, hhost⟩
  rw [readRegister_idle hb]
  split_ifs with hvalue hdist hlen hilen hicur holen
  · rw [hvalue]; rfl
  · rw [hdist]; rfl
  · rw [hlen]; rfl
  · rw [hilen]; exact zextLength_toNat s.ilen
  · rw [hicur]; exact zextLength_toNat s.icur
  · rw [holen]; exact zextLength_toNat s.olen
  · rcases Nat.eq_zero_or_pos addr.toNat with hcmd | hpos
    · rw [hcmd]; rfl
    · rw [regAt_eq_none_of_reserved (by omega)]; rfl

section Regions

variable {a : Addr}

/-- The addresses of the two windows (20_memory.md R50). -/
theorem regionOf_window (hlo : 0x1000000 ≤ a.toNat) (hhi : a.toNat < 0x3000000) :
    ∃ b k, regionOf a = .window b k := by
  unfold regionOf
  rw [if_neg (by omega)]
  split_ifs with hibuf hobuf
  · exact ⟨_, _, rfl⟩
  · exact ⟨_, _, rfl⟩
  · omega

theorem regionOf_unmapped (hreg : ¬a.toNat < 0x40) (hwin : ¬(0x1000000 ≤ a.toNat ∧ a.toNat < 0x3000000)) :
    regionOf a = .unmapped := by
  rw [regionOf, if_neg hreg, if_neg (by omega), if_neg (by omega)]

/-- The reads without a bus error (20_memory.md R54). -/
theorem busErrorOf_read_eq_none_iff {w : Nat} : busErrorOf (.read a w) = none ↔
    (a.toNat < 0x40 ∧ w = 4 ∧ a.toNat % 4 = 0) ∨ (0x1000000 ≤ a.toNat ∧ a.toNat < 0x3000000 ∧ w = 1) := by
  by_cases hreg : a.toNat < 0x40
  · by_cases hw : w = 4 <;> by_cases h4 : a.toNat % 4 = 0 <;> simp [busErrorOf, reg_region a hreg, hw, h4] <;> omega
  · by_cases hwin : 0x1000000 ≤ a.toNat ∧ a.toNat < 0x3000000
    · obtain ⟨b, k, hb⟩ := regionOf_window hwin.1 hwin.2
      by_cases hw : w = 1 <;> simp [busErrorOf, hb, hw] <;> omega
    · simp [busErrorOf, regionOf_unmapped hreg hwin]
      omega

/-- The writes without a bus error (20_memory.md R54). -/
theorem busErrorOf_write_eq_none_iff {w : Nat} {v : Word} : busErrorOf (.write a w v) = none ↔
    a.toNat < 0x40 ∧ w = 4 ∧ a.toNat % 4 = 0 := by
  by_cases hreg : a.toNat < 0x40
  · by_cases hw : w = 4 <;> by_cases h4 : a.toNat % 4 = 0 <;> simp [busErrorOf, reg_region a hreg, hw, h4, hreg]
  · by_cases hwin : 0x1000000 ≤ a.toNat ∧ a.toNat < 0x3000000
    · obtain ⟨b, k, hb⟩ := regionOf_window hwin.1 hwin.2
      simp [busErrorOf, hb, hreg]
    · simp [busErrorOf, regionOf_unmapped hreg hwin, hreg]

end Regions

section Accesses

variable {s : State} {ag : Nat} {op : BusOp} {rest : List HostEvent}

/-- An admitted access completes where it gets no bus error, and stops as that fault where it gets one. -/
theorem step_access (ha : admitted s ag) (h : hostNext s (.access ag op) rest) :
    if busErrorOf op = none then ∃ t, step s = .next t else ∃ e, step s = .fault (.busError e) := by
  have ha' : admitted (takeEvent rest s) ag := ha
  rw [step_host s _ rest h, hostEvent, admit_admitted ag _ _ ha']
  unfold busAccess
  cases busErrorOf op with
  | none => cases op <;> exact ⟨_, rfl⟩
  | some e => exact ⟨e, rfl⟩

/-- An admitted poll is a read of `STATUS`, which stands first again while the block is busy. -/
theorem step_poll (ha : admitted s ag) (h : hostNext s (.poll ag) rest) :
    step s = .next (if s.busy then putBack (.poll ag) (afterRead (.word (readRegister (some .status) s)) ag rest s)
      else afterRead (.word (readRegister (some .status) s)) ag rest s) := by
  have ha' : admitted (takeEvent rest s) ag := ha
  have hread : readRegister (some .status) (serve (some ag) (takeEvent rest s)) = readRegister (some .status) s := rfl
  rw [step_host s _ rest h, hostEvent, admit_admitted ag _ _ ha', pollOnce, hread, readRegister_status_busy]
  cases s.busy <;> rfl

end Accesses

/-- Settles O51: the addresses and widths for which `busErrorOf` finds no error. -/
theorem busErrorsAreExactlyTheIllegalAccesses : Obligations.BusErrorsAreExactlyTheIllegalAccesses := by
  intro s a op rest ha h
  have hstep := step_access ha h
  cases op with
  | read addr w => simpa only [busErrorOf_read_eq_none_iff] using hstep
  | write addr w v => simpa only [busErrorOf_write_eq_none_iff] using hstep

/-- Settles O56: one read of `STATUS`, and the poll put back by its bit 0. -/
theorem pollRepeatsUntilIdle : Obligations.PollRepeatsUntilIdle := by
  intro s a rest ha h
  refine ⟨_, readRegister (some .status) s, step_poll ha h, ?_⟩
  have hreplies := afterRead_replies (.word (readRegister (some .status) s)) a rest s
  have hblock := afterRead_block (.word (readRegister (some .status) s)) a rest s
  obtain ⟨hbusy, hcmd, hhost, hwait⟩ := afterRead_turn (.word (readRegister (some .status) s)) a rest s
  cases hb : s.busy with
  | true =>
    exact ⟨hreplies, (readRegister_status_busy s).trans hb, congrArg _ hhost, hbusy.trans hb, hcmd, hwait, hblock⟩
  | false => exact ⟨hreplies, (readRegister_status_busy s).trans hb, hhost, hbusy.trans hb, hcmd, hwait, hblock⟩

/-- Settles O55: the registers a busy read still gives, and that either window replies a byte. -/
theorem readsWhileBusy : Obligations.ReadsWhileBusy := by
  refine ⟨fun s a addr rest hb ha h40 h4 h => ?_, fun s a addr rest hb ha hlo hhi h => ?_⟩
  · obtain ⟨hbusy, hcmd, -⟩ := afterRead_turn (.word (readRegister (regAt addr.toNat) s)) a rest s
    refine ⟨_, _, step_registerRead ha h h40 h4 rfl, afterRead_replies _ a rest s, fun hstatus => ?_, fun hdist => ?_,
      fun hlen => ?_, fun hzero => ?_, hbusy.trans hb, hcmd, afterRead_block _ a rest s⟩
    · rw [hstatus]; exact (readRegister_status_busy s).trans hb
    · rw [hdist]; exact readRegister_dist s
    · rw [hlen]; exact readRegister_len s
    · rcases hzero with hzero | hres
      · rw [hzero]; exact readRegister_cmd s
      · rw [regAt_eq_none_of_reserved hres, readRegister_none]
  · obtain ⟨b, k, hw⟩ := regionOf_window hlo hhi
    obtain ⟨hbusy, hcmd, -⟩ :=
      afterRead_turn (.byte (readWindow b k (serve (some a) (takeEvent rest s)))) a rest s
    exact ⟨_, _, step_windowRead ha h hw, afterRead_replies _ a rest s, hbusy.trans hb, hcmd,
      afterRead_block _ a rest s⟩

end Sys2Proof.Machine

/-! The reader of values: the form its first character names, and what it makes of an encoded value. -/

namespace Sys2Proof.Machine

section FirstCharacter

variable {c : Byte} {rest : List Byte}

theorem isTier_iff : isTier c = true ↔ 0x23 ≤ c.toNat ∧ c.toNat ≤ 0x2F := by simp [isTier]

/-- A LONG character is one of `'<'`, `'='`, `'>'` (30_encoding.md R72). -/
theorem longDigits_ne_zero_iff : longDigits c ≠ 0 ↔ c = 0x3C#8 ∨ c = 0x3D#8 ∨ c = 0x3E#8 := by
  unfold longDigits; split_ifs <;> simp [*]

/-- No character is of two of the classes DIGIT, TIER and LONG (30_encoding.md R72). -/
theorem forms_disjoint (c : Byte) : (isTier c = true → isDigit c = false ∧ longDigits c = 0) ∧
    (isDigit c = true → longDigits c = 0) := by
  revert c; decide

/-- A DIGIT is a value of its own (30_encoding.md R78). -/
theorem decodeValue_digit (h : isDigit c = true) : decodeValue (c :: rest) = .ok (digval c) rest := by
  obtain ⟨htier, hlong⟩ := forms_disjoint c
  have ht : ¬isTier c = true := fun ht => by simp [(htier ht).1] at h
  simp [decodeValue, nextChar, ht, hlong h, h]

/-- After a TIER character stands one digit. -/
theorem decodeValue_tier (h : isTier c = true) : decodeValue (c :: rest) = nextDigits 1 (c.toNat - 0x22) rest := by
  simp [decodeValue, nextChar, h]

/-- After a LONG character stand as many digits as it names. -/
theorem decodeValue_long {n : Nat} (h : longDigits c = n + 1) :
    decodeValue (c :: rest) = nextDigits (n + 1) 0 rest := by
  have ht : ¬isTier c = true := fun ht => by simp [((forms_disjoint c).1 ht).2] at h
  simp [decodeValue, nextChar, ht, h]

/-- A character of no form begins no value. -/
theorem decodeValue_noForm (hd : isDigit c = false) (ht : ¬isTier c = true) (hl : longDigits c = 0) :
    decodeValue (c :: rest) = .bad .invalidNumeric := by
  simp [decodeValue, nextChar, ht, hl, hd]

end FirstCharacter

/-- Settles O58: each form by its first character; the digits after it are read alike, also where they are too few. -/
theorem decodeValueReadsEveryForm : Obligations.DecodeValueReadsEveryForm := by
  refine ⟨fun c rest => decodeValue_digit, fun c d rest hlo hhi hd => ?_, fun a b rest ha hb => ?_,
    fun a b c rest ha hb hc => ?_, fun a b c d rest ha hb hc hd => ?_, rfl, fun c rest hd ht h2 h3 h4 => ?_,
    fun c n ds hform hlen hds => ?_⟩
  · rw [decodeValue_tier (isTier_iff.2 ⟨hlo, hhi⟩), nextDigits_cons _ _ _ _ hd, nextDigits]
  · rw [decodeValue_long (n := 1) rfl, nextDigits_cons _ _ _ _ ha,
      nextDigits_cons _ _ _ _ hb, nextDigits, Nat.zero_mul, Nat.zero_add]
  · rw [decodeValue_long (n := 2) rfl, nextDigits_cons _ _ _ _ ha,
      nextDigits_cons _ _ _ _ hb, nextDigits_cons _ _ _ _ hc, nextDigits]
    congr 1
    omega
  · rw [decodeValue_long (n := 3) rfl, nextDigits_cons _ _ _ _ ha,
      nextDigits_cons _ _ _ _ hb, nextDigits_cons _ _ _ _ hc, nextDigits_cons _ _ _ _ hd, nextDigits]
    congr 1
    omega
  · refine decodeValue_noForm hd (mt isTier_iff.1 ht) (not_ne_iff.1 (mt longDigits_ne_zero_iff.1 ?_))
    rintro (h | h | h) <;> contradiction
  · have hread : ∃ v, ∀ t, decodeValue (c :: t) = nextDigits n v t := by
      rcases hform with ⟨hlo, hhi, rfl⟩ | ⟨rfl, rfl⟩ | ⟨rfl, rfl⟩ | ⟨rfl, rfl⟩
      · exact ⟨_, fun _ => decodeValue_tier (isTier_iff.2 ⟨hlo, hhi⟩)⟩
      · exact ⟨0, fun _ => decodeValue_long rfl⟩
      · exact ⟨0, fun _ => decodeValue_long rfl⟩
      · exact ⟨0, fun _ => decodeValue_long rfl⟩
    obtain ⟨v, hv⟩ := hread
    simp only [hv]
    exact nextDigits_short ds n v hlen hds

/-- Settles O23: by form, the digits give a number below the next power of 64, and a LONG form has 4 digits at most. -/
theorem decodedValueIsInRange : Obligations.DecodedValueIsInRange := by
  intro t rest v h
  rcases decodeValue_cases t with ⟨_, h'⟩ | ⟨c, r, rfl, ⟨ht, h'⟩ | ⟨_, hl, h'⟩ | ⟨_, _, hd, h'⟩ | ⟨_, _, _, h'⟩⟩ <;>
    rw [h] at h'
  · cases h'
  · obtain ⟨used, rfl, hlen, -, hlt⟩ := nextDigits_ok h'.symm
    have := isTier_iff.1 ht
    exact ⟨by omega, c :: used, rfl, by simp, by simp [hlen]⟩
  · obtain ⟨used, rfl, hlen, -, hlt⟩ := nextDigits_ok h'.symm
    have hpow : 64 ^ longDigits c ≤ 64 ^ 4 := Nat.pow_le_pow_right (by omega) (longDigits_le c)
    have := longDigits_le c
    exact ⟨by omega, c :: used, rfl, by simp, by rw [List.length_cons]; omega⟩
  · cases h'
    have := digval_lt c hd
    exact ⟨by omega, [c], rfl, by simp, by simp⟩
  · cases h'

/-- The first character of the compact tier carries the value's upper part (30_encoding.md R76). -/
theorem tierCharacter {q : Nat} (h1 : 1 ≤ q) (h13 : q ≤ 13) : isTier (chr (0x22 + q)) = true ∧
    (chr (0x22 + q)).toNat - 0x22 = q := by
  have hn : (chr (0x22 + q)).toNat = 0x22 + q := by simp only [chr, BitVec.toNat_ofNat]; omega
  rw [isTier_iff, hn]
  omega

/-- Settles O21: form by form, the reader reads the digits that were written and puts the value together again. -/
theorem decodeValueInvertsEncodeValue : Obligations.DecodeValueInvertsEncodeValue := by
  intro v rest hv
  unfold encodeValue
  split_ifs with h1 h2 h3 h4
  · obtain ⟨hdigit, hval, -⟩ := isDigit_digit v h1
    rw [List.singleton_append, decodeValue_digit hdigit, hval]
  · obtain ⟨htier, hq⟩ := tierCharacter (q := v / 64) (by omega) (by omega)
    simp only [List.cons_append, List.nil_append]
    rw [decodeValue_tier htier, hq, nextDigits_digit _ _ _ _ (by omega), nextDigits]
    congr 1
    omega
  · simp only [List.cons_append, List.nil_append]
    rw [decodeValue_long (n := 1) rfl, nextDigits_digit _ _ _ _ (by omega),
      nextDigits_digit _ _ _ _ (by omega), nextDigits]
    congr 1
    omega
  · simp only [List.cons_append, List.nil_append]
    rw [decodeValue_long (n := 2) rfl, nextDigits_digit _ _ _ _ (by omega),
      nextDigits_digit _ _ _ _ (by omega), nextDigits_digit _ _ _ _ (by omega), nextDigits]
    congr 1
    omega
  · simp only [List.cons_append, List.nil_append]
    rw [decodeValue_long (n := 3) rfl, nextDigits_digit _ _ _ _ (by omega),
      nextDigits_digit _ _ _ _ (by omega), nextDigits_digit _ _ _ _ (by omega), nextDigits_digit _ _ _ _ (by omega),
      nextDigits]
    congr 1
    omega

/-- Settles O22: what the encoding decodes to is the value. -/
theorem encodeValueIsInjective : Obligations.EncodeValueIsInjective := by
  intro v w hv hw h
  have hread := decodeValueInvertsEncodeValue v [] hv
  rw [h, decodeValueInvertsEncodeValue w [] hw] at hread
  cases hread
  rfl

/-- Settles O19: the classes' ranges, over the 256 codes. -/
theorem keptCharactersFallIntoFiveClasses : Obligations.KeptCharactersFallIntoFiveClasses := by
  unfold Obligations.KeptCharactersFallIntoFiveClasses
  exact ⟨by decide, by decide +kernel⟩

end Sys2Proof.Machine

/-! VENC, VDEC and EXPAND: the three outcomes of each. -/

namespace Sys2Proof.Machine

/-- Work on one buffer that is done leaves the error fields as they were. -/
theorem KeepsRest.sameError_complete {b : Buffer} {s t : State} (h : KeepsRest b s t) : sameError s (complete t) := by
  obtain ⟨-, herr, hecode, hcause, -⟩ := h.fields
  exact ⟨herr, hecode, hcause⟩

/-- A value outside the domain is refused before anything is appended (41_varint.md R110). -/
theorem workOf_venc_range {s : State} (h : 16777216 ≤ s.value.toNat) : workOf .venc s = .raised .valueRange s :=
  if_pos h

theorem workOf_venc_append {s : State} (h : ¬16777216 ≤ s.value.toNat) :
    workOf .venc s = appendText .obuf (encodeValue s.value.toNat) s := if_neg h

/-- Settles O24: the encoding is a text of kept characters, which `appendText` stores where it fits. -/
theorem vencAppendsTheEncoding : Obligations.VencAppendsTheEncoding := by
  intro s herr ha
  have hends := endOf_endsWithin .venc s (by decide)
  refine ⟨_, exec_eq .venc s (.inl herr), hends.idle, hends.sameOperands (by decide),
    hends.sameInput (by decide) (by decide) (by decide), hends.outside, ?_⟩
  split_ifs with hrange hfits
  · rw [workOf_venc_range hrange]
    exact ⟨⟨rfl, rfl, rfl⟩, ⟨rfl, rfl⟩, rfl⟩
  · obtain ⟨s', hdone, htext, hlen, -, -, hrest⟩ := appendText_fits .obuf _ s (keep_encodeValue _) hfits ha
    rw [workOf_venc_append hrange, hdone]
    exact ⟨hrest.sameError_complete, htext, hlen, (appendText_grow .obuf _ s s' hdone).1⟩
  · obtain ⟨s', hraised, -⟩ :=
      appendText_too_long .obuf _ s (keep_encodeValue _) (Nat.lt_of_not_le hfits) (encodeValue_ne_nil _) ha
    rw [workOf_venc_append hrange, hraised]
    exact ⟨rfl, rfl, rfl⟩

section Cursor

variable {s : State} {used rest : List Byte} {v : Nat}

/-- What a read used stands between the old cursor and the new one, and what it left is what stays unread. -/
theorem cursorAt_of_unread (h : unread s = used ++ rest) (hne : used ≠ []) :
    cursorAt rest s = setCursor (s.icur + used.length) s ∧ s.icur + used.length ≤ s.ilen ∧
      unread (setCursor (s.icur + used.length) s) = rest := by
  have hlen : s.ilen - s.icur = used.length + rest.length := by rw [← unread_length, h, List.length_append]
  have hpos := List.length_pos_of_ne_nil hne
  refine ⟨congrArg (setCursor · s) (by omega), by omega, ?_⟩
  have hslice := slice_split s.ibuf s.icur (s.ilen - s.icur) used rest h
  rwa [Nat.sub_sub] at hslice

/-- VDEC's work where the unread text begins with a value (R115). -/
theorem workOf_vdec_ok (hread : decodeValue (unread s) = .ok v rest) (h : unread s = used ++ rest) (hne : used ≠ []) :
    workOf .vdec s = .done (setValue (BitVec.ofNat 32 v) (setCursor (s.icur + used.length) s)) := by
  rw [← (cursorAt_of_unread h hne).1, workOf, hread]
  rfl

theorem workOf_vdec_bad {e : Err} (hread : decodeValue (unread s) = .bad e) : workOf .vdec s = .raised e s := by
  rw [workOf, hread]
  rfl

/-- `VALUE` takes a decoded number whole. -/
theorem ofNat_toNat_of_value (hv : v < 16777216) : (BitVec.ofNat 32 v).toNat = v := by
  rw [BitVec.toNat_ofNat]
  omega

end Cursor

/-- Settles O25: `decodedValueIsInRange` says how far the cursor moves, `decodeValue_bad` which errors there are. -/
theorem vdecDecodesIntoValue : Obligations.VdecDecodesIntoValue := by
  intro s herr _
  have hends := endOf_endsWithin .vdec s (by decide)
  refine ⟨_, exec_eq .vdec s (.inl herr), hends.dist, hends.len, hends.ibuf (by decide), hends.ilen (by decide),
    hends.sameOutput (by decide) (by decide), hends.outside, hends.idle, ?_⟩
  cases hread : decodeValue (unread s) with
  | ok v rest =>
    obtain ⟨hrange, used, hused, hpos, hfive⟩ := decodedValueIsInRange _ _ _ hread
    have hne := List.ne_nil_of_length_pos hpos
    obtain ⟨-, hle, hrest⟩ := cursorAt_of_unread hused hne
    rw [workOf_vdec_ok hread hused hne]
    exact ⟨ofNat_toNat_of_value hrange, hrest, Nat.add_le_add_left hpos _, Nat.add_le_add_left hfive _, hle,
      ⟨rfl, rfl, rfl⟩, rfl⟩
  | bad e =>
    have herrs := decodeValue_bad hread
    rw [workOf_vdec_bad hread]
    refine ⟨herrs, ?_⟩
    rcases herrs with rfl | rfl
    · exact ⟨⟨rfl, rfl, rfl⟩, unspecify_icur_le (writeSet .vdec) s rfl⟩
    · exact ⟨⟨rfl, rfl, rfl⟩, unspecify_icur_le (writeSet .vdec) s rfl⟩

/-- Settles O26: the decoder gives the encoded value back and leaves what follows it. -/
theorem vdecReadsAnEncodedValue : Obligations.VdecReadsAnEncodedValue := by
  intro s v rest herr hv hunread
  have hread : decodeValue (unread s) = .ok v rest := by rw [hunread, decodeValueInvertsEncodeValue v rest hv]
  have hne := encodeValue_ne_nil v
  obtain ⟨-, -, hrest⟩ := cursorAt_of_unread hunread hne
  refine ⟨_, exec_eq .vdec s (.inl herr), ?_⟩
  rw [workOf_vdec_ok hread hunread hne]
  exact ⟨ofNat_toNat_of_value hv, rfl, hrest, ⟨rfl, rfl, rfl⟩, rfl, rfl, rfl, rfl⟩

section Backreferences

variable {d l : Nat} {s : State}

/-- The checks come in this order: valid, then below the ceiling (44_inflate.md R214, R215). -/
theorem backref_invalid (h : d = 0 ∨ l = 0 ∨ s.olen < d) : backref d l s = .raised .invalidBackref s := if_pos h

theorem backref_tooLong (h : ¬(d = 0 ∨ l = 0 ∨ s.olen < d)) (hcap : Config.cap < s.olen + l) :
    backref d l s = .raised .tooLong s := by rw [backref, if_neg h, if_pos hcap]

theorem backref_expands (h : ¬(d = 0 ∨ l = 0 ∨ s.olen < d)) (hcap : ¬Config.cap < s.olen + l) :
    backref d l s = expand d l s := by rw [backref, if_neg h, if_neg hcap]

end Backreferences

/-- An output length an error leaves unspecified is at most the ceiling (R243). -/
theorem unspecify_olen_le {ws : List Element} (s : State) (h : inSet .olen ws = true) :
    (unspecify ws s).olen ≤ Config.cap := by
  rw [unspecify_olen, unspecOlen, if_pos h]
  exact (freeLength_bounds _ 0 (Nat.zero_le _)).2

/-- EXPAND's INVALID_BACKREF: a draw says whether the output keeps its value (log 2). -/
theorem endOf_invalidBackref (s : State) : errorIs (endOf .expand (.raised .invalidBackref s)) 2#4 2#4 ∧
    (if Config.expandKeeps s.draws = true then sameOutput s (endOf .expand (.raised .invalidBackref s))
     else (endOf .expand (.raised .invalidBackref s)).olen ≤ Config.cap) := by
  refine ⟨⟨rfl, rfl, rfl⟩, ?_⟩
  have hend : endOf .expand (.raised .invalidBackref s) = complete (refuseExpand s) := rfl
  rw [hend, refuseExpand]
  split_ifs with hkeeps
  · exact ⟨rfl, rfl⟩
  · exact unspecify_olen_le (ws := writeSet .expand) s rfl

/-- Settles O15: the three cases of `backref`, with `expand_ok` for the valid one. -/
theorem expandCopiesOrRefuses : Obligations.ExpandCopiesOrRefuses := by
  intro s herr ha hkept
  have hends := endOf_endsWithin .expand s (by decide)
  refine ⟨_, exec_eq .expand s (.inl herr), hends.idle, hends.sameOperands (by decide),
    hends.sameInput (by decide) (by decide) (by decide), hends.outside, ?_⟩
  have hiff : (s.dist = 0#32 ∨ s.len = 0#32 ∨ s.olen < s.dist.toNat) ↔
      (s.dist.toNat = 0 ∨ s.len.toNat = 0 ∨ s.olen < s.dist.toNat) := by simp [BitVec.toNat_eq]
  simp only [hiff, workOf]
  by_cases hbad : s.dist.toNat = 0 ∨ s.len.toNat = 0 ∨ s.olen < s.dist.toNat
  · rw [if_pos hbad, backref_invalid hbad]
    exact endOf_invalidBackref s
  by_cases hcap : Config.cap < s.olen + s.len.toNat
  · rw [if_neg hbad, if_pos hcap, backref_tooLong hbad hcap]
    exact ⟨rfl, rfl, rfl⟩
  · rw [if_neg hbad, if_neg hcap]
    obtain ⟨t, hdone, hlen, hrest, -, hread, hcells, -⟩ :=
      expand_ok s.dist.toNat s.len.toNat s hkept (by omega) (by omega) (by omega) ha
    rw [backref_expands hbad hcap, hdone]
    exact ⟨hrest.sameError_complete, hlen, hread, hcells⟩

end Sys2Proof.Machine

/-! The compressor's text: its length, and the items of the grammar it is made of. -/

namespace Sys2Proof.Machine

section TokenLength

variable {m : Match}

/-- A near token stands for 4 characters at least and a far one for 5: fewer characters write its length (R184). -/
theorem tokenOf_length_lt (h4 : 4 ≤ m.len) (hlit : isLiteral m = false) : (tokenOf m).length < m.len := by
  have hfar : ¬(m.len = 0 ∨ m.len = 4 ∧ 64 ≤ m.dist) := by rw [← isLiteral_iff, hlit]; exact Bool.false_ne_true
  by_cases hnear : m.dist < 64
  · rw [tokenOf_near hnear, List.length_cons, List.length_cons, encodedLengthLaw]
    split_ifs <;> omega
  · rw [tokenOf_far hnear, List.length_cons, List.length_cons, List.length_cons, encodedLengthLaw]
    split_ifs <;> omega

variable {s : List Byte} {i : Nat}

/-- What stands behind a token: a match of length 4 at least, at a distance the search tried. -/
theorem bestMatch_token (hlit : isLiteral (bestMatch s i) = false) :
    4 ≤ (bestMatch s i).len ∧ 1 ≤ (bestMatch s i).dist ∧ (bestMatch s i).dist ≤ i ∧ (bestMatch s i).dist ≤ 4095 ∧
      (bestMatch s i).len = matchLen s (i - (bestMatch s i).dist) i := by
  have hne : (bestMatch s i).len ≠ 0 := fun h => by simp [isLiteral_iff.2 (.inl h)] at hlit
  obtain ⟨hlen, hpos, hlt, heq⟩ := (bestMatch_bestBelow s i).found hne
  exact ⟨hlen, hpos, by omega, by omega, heq⟩

/-- A token's match ends inside the text. -/
theorem add_bestMatch_le (hi : i ≤ s.length) (hlit : isLiteral (bestMatch s i) = false) :
    i + (bestMatch s i).len ≤ s.length := by
  obtain ⟨-, -, -, -, heq⟩ := bestMatch_token hlit
  rw [heq]
  exact add_matchLen_le _ hi

end TokenLength

/-- Settles O30: `tokenOf_length_lt` at the best match, which ends inside the text. -/
theorem everyTokenIsShorter : Obligations.EveryTokenIsShorter := by
  intro s i hi hlit
  exact ⟨tokenOf_length_lt (bestMatch_token hlit).1 hlit, add_bestMatch_le hi.le hlit⟩

/-- Each round emits no more characters than it moves past. -/
theorem deflateFrom_length_le (s : List Byte) (fuel i : Nat) : (deflateFrom s fuel i).length ≤ s.length - i := by
  induction fuel generalizing i with
  | zero => rw [deflateFrom, List.length_drop]
  | succ fuel ih =>
    rw [deflateFrom]
    split_ifs with h4 hlit
    · have := ih (i + 1)
      rw [List.length_cons]
      omega
    · rw [Bool.not_eq_true] at hlit
      have := ih (i + (bestMatch s i).len)
      obtain ⟨hshort, hle⟩ := everyTokenIsShorter s i (by omega) hlit
      rw [List.length_append]
      omega
    · rw [List.length_drop]

/-- Settles O31: the loop from position 0. -/
theorem deflateNeverGrows : Obligations.DeflateNeverGrows := fun s => deflateFrom_length_le s s.length 0

section DeflateWork

variable {s : State}

theorem workOf_deflate_nonempty (h : s.olen ≠ 0) : workOf .deflate s = .raised .outputNotEmpty s := if_pos h

theorem workOf_deflate_empty (h : s.olen = 0) : workOf .deflate s =
    (appendText .obuf (deflate (unread s)) s).andThen (fun s' => .done (cursorToEnd s')) := if_neg (not_not.2 h)

theorem keep_deflate {t : List Byte} (ht : ∀ c ∈ t, keep c = true) : ∀ c ∈ deflate t, keep c = true :=
  keep_deflateFrom t ht t.length 0

/-- The compressed unread text fits wherever the text itself did. -/
theorem deflate_unread_length_le (hcap : s.ilen ≤ Config.cap) : (deflate (unread s)).length ≤ Config.cap := by
  have hshort := deflateNeverGrows (unread s)
  rw [unread_length] at hshort
  omega

end DeflateWork

/-- Settles O32: the compressed text is kept characters and fits, so `appendText` stores it whole. -/
theorem deflateCompressesTheUnreadText : Obligations.DeflateCompressesTheUnreadText := by
  intro s herr ha hcap hkept
  have hends := endOf_endsWithin .deflate s (by decide)
  refine ⟨_, exec_eq .deflate s (.inl herr), hends.idle, hends.sameOperands (by decide), hends.ibuf (by decide),
    hends.ilen (by decide), hends.outside, ?_⟩
  by_cases hempty : s.olen ≠ 0
  · rw [if_pos hempty, workOf_deflate_nonempty hempty]
    exact ⟨rfl, ⟨rfl, rfl, rfl⟩, ⟨rfl, rfl, rfl⟩, rfl, rfl⟩
  · rw [if_neg hempty]
    rw [not_not] at hempty
    have hfits : lengthOf .obuf s + (deflate (unread s)).length ≤ Config.cap := by
      rw [lengthOf, hempty, Nat.zero_add]
      exact deflate_unread_length_le hcap
    obtain ⟨s', hdone, htext, hlen, -, hdraws, hrest⟩ :=
      appendText_fits .obuf _ s (keep_deflate hkept) hfits ha
    rw [textOf_eq_nil (b := .obuf) hempty, List.nil_append] at htext
    rw [lengthOf, lengthOf, hempty, Nat.zero_add] at hlen
    obtain ⟨hcells, -⟩ := appendText_grow .obuf _ s s' hdone
    rw [lengthOf, hempty] at hcells
    rw [workOf_deflate_empty hempty, hdone]
    exact ⟨hdraws, hrest.sameError_complete, htext, hlen, hrest.input.2, hcells⟩

section MatchText

variable {s : List Byte} {i d l : Nat}

/-- A text that agrees over `l` characters with itself `d` before repeats the last `d` with that period. -/
theorem getD_eq_of_period (hd : d ≤ i) (h : ∀ k, k < l → s.getD (i - d + k) 0#8 = s.getD (i + k) 0#8) (k : Nat)
    (hk : k < l) : s.getD (i + k) 0#8 = s.getD (i - d + k % d) 0#8 := by
  induction k using Nat.strong_induction_on with
  | _ k ih =>
    rw [← h k hk]
    by_cases hlt : k < d
    · rw [Nat.mod_eq_of_lt hlt]
    · rcases Nat.eq_zero_or_pos d with rfl | hpos
      · rw [Nat.mod_zero]
      · rw [show i - d + k = i + (k - d) by omega, ih (k - d) (by omega) (by omega), ← Nat.mod_eq_sub_mod (by omega)]

/-- The match a token stands for, copied from the text before it, is the text at its place (42_buffer.md R147). -/
theorem copied_match (hd : 1 ≤ d) (hdi : d ≤ i) (hle : i + l ≤ s.length)
    (h : ∀ k, k < l → s.getD (i - d + k) 0#8 = s.getD (i + k) 0#8) :
    s.take i ++ copied (s.take i) d l = s.take (i + l) := by
  rw [List.take_add]
  refine congrArg _ (List.ext_getElem (by simp [copied]; omega) fun k hk hk' => ?_)
  simp only [copied, List.length_map, List.length_range] at hk
  have hmod := Nat.mod_lt k (show 0 < d by omega)
  have hperiod := getD_eq_of_period hdi h k hk
  rw [List.getD_eq_getElem _ _ (by omega), List.getD_eq_getElem _ _ (by omega)] at hperiod
  simp only [copied, List.getElem_map, List.getElem_range, List.length_take,
    Nat.min_eq_left (show i ≤ s.length by omega), List.getElem_take, List.getElem_drop]
  rw [List.getD_eq_getElem _ _ (by rw [List.length_take]; omega), List.getElem_take]
  exact hperiod.symm

end MatchText

section Items

/-- The item of the grammar a match's token is (30_encoding.md R84). -/
def itemOf (m : Match) : Item :=
  if m.dist < Config.nearDist then .qref (encodeValue m.dist) (encodeValue m.len)
  else .aref (digit (m.dist / 64)) (digit (m.dist % 64)) (encodeValue m.len)

theorem itemText_itemOf (m : Match) : itemText (itemOf m) = tokenOf m := by
  unfold itemOf tokenOf; split_ifs <;> rfl

theorem wholeValue_encodeValue {v : Nat} (hv : v < 16777216) : wholeValue (encodeValue v) = some v := by
  have h := decodeValueInvertsEncodeValue v [] hv
  rw [List.append_nil] at h
  rw [wholeValue, h]

/-- A token is the back-reference of its match. -/
theorem applyItem_itemOf {m : Match} (out : List Byte) (hdist : m.dist ≤ 4095) (hlen : m.len < 16777216) :
    applyItem out (itemOf m) = applyRef out m.dist m.len := by
  unfold itemOf
  split_ifs
  · rw [applyItem, wholeValue_encodeValue (by omega), wholeValue_encodeValue hlen]
  · obtain ⟨hhigh, hhighval, -⟩ := isDigit_digit (m.dist / 64) (by omega)
    obtain ⟨hlow, hlowval, -⟩ := isDigit_digit (m.dist % 64) (by omega)
    rw [applyItem, if_pos ⟨hhigh, hlow⟩, wholeValue_encodeValue hlen, hhighval, hlowval, Nat.div_add_mod']

variable {s : List Byte} {i : Nat}

/-- The item of a token makes of the text before the match the text with it. -/
theorem applyItem_bestMatch (hcap : s.length ≤ Config.cap) (hi : i < s.length)
    (hlit : isLiteral (bestMatch s i) = false) :
    applyItem (s.take i) (itemOf (bestMatch s i)) = some (s.take (i + (bestMatch s i).len)) := by
  obtain ⟨hlen, hpos, hdi, hdist, heq⟩ := bestMatch_token hlit
  obtain ⟨-, hagree, -⟩ := matchLenIsTheLargest s (i - (bestMatch s i).dist) i (by omega) hi
  have hle := add_bestMatch_le hi.le hlit
  have htake : (s.take i).length = i := by rw [List.length_take]; omega
  have hdomain : Config.cap = 16777216 := rfl
  rw [← heq] at hagree
  rw [applyItem_itemOf _ hdist (by omega), applyRef, htake, if_pos (by omega), copied_match hpos hdi hle hagree]

/-- A character of the token alphabet stands for itself while the output has room. -/
theorem applyItem_literal {out : List Byte} {c : Byte} (hc : tokenChar c = true) (hout : out.length < Config.cap) :
    applyItem out (.literal c) = some (out ++ [c]) := if_pos ⟨hc, hout⟩

/-- A text of the token alphabet is a list of literals that give it back. -/
theorem exists_items_literals (t out : List Byte) (ht : ∀ c ∈ t, tokenChar c = true)
    (hcap : out.length + t.length ≤ Config.cap) :
    ∃ xs, t = xs.flatMap itemText ∧ applyItems out xs = some (out ++ t) := by
  induction t generalizing out with
  | nil => exact ⟨[], rfl, by rw [List.append_nil]; rfl⟩
  | cons c t ih =>
    rw [List.length_cons] at hcap
    obtain ⟨xs, htext, happly⟩ := ih (out ++ [c]) (fun x hx => ht x (.tail _ hx)) (by simp; omega)
    refine ⟨.literal c :: xs, congrArg (c :: ·) htext, ?_⟩
    rw [applyItems, applyItem_literal (ht c (.head _)) (by omega)]
    simpa using happly

/-- From any position the compressor writes items that turn the text before it into the whole text. -/
theorem exists_items_deflateFrom (hs : ∀ c ∈ s, tokenChar c = true) (hcap : s.length ≤ Config.cap) (fuel i : Nat)
    (hi : i ≤ s.length) :
    ∃ xs, deflateFrom s fuel i = xs.flatMap itemText ∧ applyItems (s.take i) xs = some s := by
  have hdrop : ∀ i, i ≤ s.length → ∃ xs, s.drop i = xs.flatMap itemText ∧ applyItems (s.take i) xs = some s := by
    intro i hi
    obtain ⟨xs, htext, happly⟩ := exists_items_literals (s.drop i) (s.take i)
      (fun c hc => hs c (List.mem_of_mem_drop hc)) (by rw [← List.length_append, List.take_append_drop]; exact hcap)
    exact ⟨xs, htext, by rw [happly, List.take_append_drop]⟩
  induction fuel generalizing i with
  | zero => exact hdrop i hi
  | succ fuel ih =>
    rw [deflateFrom]
    split_ifs with h4 hlit
    · have hlt : i < s.length := by omega
      obtain ⟨xs, htext, happly⟩ := ih (i + 1) hlt
      refine ⟨.literal s[i] :: xs, by rw [htext, List.getD_eq_getElem _ _ hlt]; rfl, ?_⟩
      rw [applyItems, applyItem_literal (hs _ (List.getElem_mem hlt)) (by rw [List.length_take]; omega)]
      rwa [← List.take_succ_eq_append_getElem hlt]
    · rw [Bool.not_eq_true] at hlit
      obtain ⟨xs, htext, happly⟩ := ih (i + (bestMatch s i).len) (add_bestMatch_le hi hlit)
      refine ⟨itemOf (bestMatch s i) :: xs, by rw [htext, List.flatMap_cons, itemText_itemOf], ?_⟩
      rw [applyItems, applyItem_bestMatch hcap (by omega) hlit]
      exact happly
    · exact hdrop i hi

end Items

end Sys2Proof.Machine

/-! The decompressor: a round of its loop for each item, for a list of items, and for an item that fails. -/

namespace Sys2Proof.Machine

/-- From `s` to `s'` the output became `out`, kept characters all; only new output cells were stored. -/
structure OutputBecomes (s s' : State) (out : List Byte) : Prop where
  text : textOf .obuf s' = out
  kept : ∀ c ∈ out, keep c = true
  rest : KeepsRest .obuf s s'
  grow : CellsGrow .obuf s s'

theorem OutputBecomes.trans {s t u : State} {out out' : List Byte} (h : OutputBecomes s t out)
    (h' : OutputBecomes t u out') : OutputBecomes s u out' :=
  ⟨h'.text, h'.kept, h.rest.trans h'.rest, h.grow.trans h'.grow⟩

theorem OutputBecomes.allocMayFail {s t : State} {out : List Byte} (h : OutputBecomes s t out) :
    t.allocMayFail = s.allocMayFail := by
  obtain ⟨-, -, -, -, -, -, -, -, -, -, halloc, -⟩ := h.rest.fields
  exact halloc

/-- What a back-reference's marker reads: a near token or a far one (44_inflate.md R211). -/
def readRef (c : Byte) (t : List Byte) : Parsed Backref := if c = nearMark then readNear t else readFar t

section Rounds

variable {s : State} {c : Byte} {t rest : List Byte} {r : Backref} {n : Nat}

theorem inflateLoop_ref (hc : c = nearMark ∨ c = farMark) (h : readRef c t = .ok r rest) :
    inflateLoop (n + 1) (c :: t) s = (backref r.dist r.len s).andThen (inflateLoop n rest) := by
  unfold readRef at h
  rw [inflateLoop, if_pos hc, h]

theorem inflateLoop_badRef {e : Err} (hc : c = nearMark ∨ c = farMark) (h : readRef c t = .bad e) :
    inflateLoop (n + 1) (c :: t) s = .raised e s := by
  unfold readRef at h
  rw [inflateLoop, if_pos hc, h]

theorem inflateLoop_literal (hc : ¬(c = nearMark ∨ c = farMark)) :
    inflateLoop (n + 1) (c :: t) s = (append .obuf c s).andThen (inflateLoop n t) := by
  rw [inflateLoop, if_neg hc]

end Rounds

section ValidItems

variable {s : State} {out : List Byte}

theorem tokenChar_iff {c : Byte} : tokenChar c = true ↔ keep c = true ∧ ¬(c = nearMark ∨ c = farMark) := by
  simp [tokenChar]

/-- A literal the grammar allows is appended. -/
theorem append_of_applyItem {c : Byte} (h : applyItem (textOf .obuf s) (.literal c) = some out)
    (hkept : ∀ c ∈ textOf .obuf s, keep c = true) (ha : s.allocMayFail = false) :
    ∃ s', append .obuf c s = .done s' ∧ OutputBecomes s s' out := by
  rw [applyItem, textOf_length] at h
  obtain ⟨⟨hc, hlen⟩, rfl⟩ := Option.ite_none_right_eq_some.1 h |>.imp id Option.some.inj
  have hkeep := (tokenChar_iff.1 hc).1
  have happend := append_kept .obuf c s hkeep hlen ha
  refine ⟨_, happend, textOf_storeChar .obuf c s (ne_zero_of_keep hkeep), fun x hx => ?_, .storeChar .obuf c s,
    append_cells .obuf c s _ happend⟩
  rcases List.mem_append.1 hx with hx | hx
  · exact hkept x hx
  · rw [List.mem_singleton.1 hx]
    exact hkeep

/-- A back-reference the grammar allows is expanded. -/
theorem backref_of_applyRef {d l : Nat} (h : applyRef (textOf .obuf s) d l = some out)
    (hkept : ∀ c ∈ textOf .obuf s, keep c = true) (ha : s.allocMayFail = false) :
    ∃ s', backref d l s = .done s' ∧ OutputBecomes s s' out := by
  rw [applyRef, textOf_length] at h
  obtain ⟨⟨hd, hl, hdo, hcap⟩, rfl⟩ := Option.ite_none_right_eq_some.1 h |>.imp id Option.some.inj
  change d ≤ s.olen at hdo
  change s.olen + l ≤ Config.cap at hcap
  obtain ⟨s', hdone, hlen, hrest, -, hread, hcells, hkept'⟩ := expand_ok d l s hkept hd hdo hcap ha
  have htext := expand_text d l s s' hd hdo hlen hread hcells
  rw [htext] at hkept'
  refine ⟨s', ?_, htext, hkept', hrest, expand_grow d l s s' hdone⟩
  rw [backref_expands (by omega) (by omega), hdone]

/-- A near or far token the grammar allows reads as a back-reference it allows. -/
theorem readRef_of_applyItem {x : Item} {out' : List Byte} (tail : List Byte) (h : applyItem out x = some out') :
    (∃ c, x = .literal c) ∨ ∃ c t r, itemText x = c :: t ∧ (c = nearMark ∨ c = farMark) ∧
      readRef c (t ++ tail) = .ok r tail ∧ applyRef out r.dist r.len = some out' := by
  cases x with
  | literal c => exact .inl ⟨c, rfl⟩
  | qref dt lt =>
    simp only [applyItem] at h
    split at h
    · rename_i d l hd hl
      exact .inr ⟨_, _, ⟨d, l⟩, rfl, .inl rfl,
        readNear_text dt lt tail d l (wholeValue_some hd) (wholeValue_some hl), h⟩
    · cases h
    · cases h
  | aref d1 d0 lt =>
    simp only [applyItem] at h
    split at h
    · rename_i hdigits
      split at h
      · rename_i l hl
        exact .inr ⟨_, _, ⟨_, l⟩, rfl, .inr rfl,
          readFar_text d1 d0 lt tail l hdigits.1 hdigits.2 (wholeValue_some hl), h⟩
      · cases h
    · cases h

variable {fuel : Nat}

/-- A valid item takes one round of the loop and makes of the output what the grammar says. -/
theorem inflateLoop_item {x : Item} {tail : List Byte} (h : applyItem (textOf .obuf s) x = some out)
    (hkept : ∀ c ∈ textOf .obuf s, keep c = true) (ha : s.allocMayFail = false)
    (hfuel : (itemText x ++ tail).length ≤ fuel) :
    ∃ s' fuel', inflateLoop fuel (itemText x ++ tail) s = inflateLoop fuel' tail s' ∧ tail.length ≤ fuel' ∧
      OutputBecomes s s' out := by
  rcases readRef_of_applyItem tail h with ⟨c, rfl⟩ | ⟨c, t, r, htext, hc, hread, happly⟩
  · obtain ⟨n, rfl⟩ : ∃ n, fuel = n + 1 := ⟨fuel - 1, by simp [itemText] at hfuel; omega⟩
    obtain ⟨s', happend, hout⟩ := append_of_applyItem h hkept ha
    rw [applyItem] at h
    have hc := (tokenChar_iff.1 (Option.ite_none_right_eq_some.1 h).1.1).2
    refine ⟨s', n, ?_, by simpa [itemText] using hfuel, hout⟩
    rw [itemText, List.singleton_append, inflateLoop_literal hc, happend, Work.andThen_done]
  · rw [htext] at hfuel ⊢
    rw [List.cons_append, List.length_cons, List.length_append] at hfuel
    obtain ⟨n, rfl⟩ : ∃ n, fuel = n + 1 := ⟨fuel - 1, by omega⟩
    obtain ⟨s', hdone, hout⟩ := backref_of_applyRef happly hkept ha
    refine ⟨s', n, ?_, by omega, hout⟩
    rw [List.cons_append, inflateLoop_ref hc hread, hdone, Work.andThen_done]

/-- A list of valid items, one round each. -/
theorem inflateLoop_items {xs : List Item} {tail : List Byte} (h : applyItems (textOf .obuf s) xs = some out)
    (hkept : ∀ c ∈ textOf .obuf s, keep c = true) (ha : s.allocMayFail = false)
    (hfuel : (xs.flatMap itemText ++ tail).length ≤ fuel) :
    ∃ s' fuel', inflateLoop fuel (xs.flatMap itemText ++ tail) s = inflateLoop fuel' tail s' ∧ tail.length ≤ fuel' ∧
      OutputBecomes s s' out := by
  induction xs generalizing s fuel with
  | nil =>
    cases h
    exact ⟨s, fuel, rfl, hfuel, rfl, hkept, .refl _ s, .refl _ s⟩
  | cons x xs ih =>
    rw [List.flatMap_cons, List.append_assoc] at hfuel ⊢
    rw [applyItems] at h
    split at h
    · rename_i out' hx
      obtain ⟨s₁, fuel₁, hrun₁, hfuel₁, hout₁⟩ := inflateLoop_item hx hkept ha hfuel
      rw [← hout₁.text] at h
      obtain ⟨s₂, fuel₂, hrun₂, hfuel₂, hout₂⟩ := ih h (by rw [hout₁.text]; exact hout₁.kept)
        (hout₁.allocMayFail.trans ha) hfuel₁
      exact ⟨s₂, fuel₂, hrun₁.trans hrun₂, hfuel₂, hout₁.trans hout₂⟩
    · cases h

end ValidItems

section FailingItems

variable {s : State} {e : Err}

/-- What `refError` finds wrong with a back-reference as read: it was not read, or `backref` refuses it. -/
theorem refError_cases {p : Parsed Backref} (h : refError (textOf .obuf s) p = some e) :
    p = .bad e ∨ ∃ r rest, p = .ok r rest ∧ backref r.dist r.len s = .raised e s := by
  cases p with
  | bad e' => cases h; exact .inl rfl
  | ok r rest =>
    have hlen : (textOf .obuf s).length = s.olen := textOf_length .obuf s
    rw [refError, hlen] at h
    split_ifs at h with hbad hcap
    · cases h; exact .inr ⟨r, rest, rfl, backref_invalid hbad⟩
    · cases h; exact .inr ⟨r, rest, rfl, backref_tooLong hbad hcap⟩

/-- The loop raises the error its next item has. -/
theorem inflateLoop_itemError {t : List Byte} {fuel : Nat} (h : itemError (textOf .obuf s) t = some e)
    (hfuel : t.length ≤ fuel) : inflateLoop fuel t s = .raised e s := by
  cases t with
  | nil => cases h
  | cons c t =>
    obtain ⟨n, rfl⟩ : ∃ n, fuel = n + 1 := ⟨fuel - 1, by simp at hfuel; omega⟩
    by_cases hc : c = nearMark ∨ c = farMark
    · have href : refError (textOf .obuf s) (readRef c t) = some e := by
        rcases hc with rfl | rfl
        · exact h
        · exact h
      rcases refError_cases href with hbad | ⟨r, rest, hread, hraised⟩
      · exact inflateLoop_badRef hc hbad
      · rw [inflateLoop_ref hc hread, hraised, Work.andThen_raised]
    · rw [itemError, if_neg (fun hn => hc (.inl hn)), if_neg (fun hf => hc (.inr hf)), textOf_length] at h
      obtain ⟨⟨hkeep, hfull⟩, he⟩ := Option.ite_none_right_eq_some.1 h
      cases he
      rw [inflateLoop_literal hc, append, if_neg (by simp [hkeep]), if_pos hfull, Work.andThen_raised]

end FailingItems

section InflateWork

variable {s : State}

theorem workOf_inflate_nonempty (h : s.olen ≠ 0) : workOf .inflate s = .raised .outputNotEmpty s := if_pos h

theorem workOf_inflate_empty (h : s.olen = 0) : workOf .inflate s =
    (inflateLoop (unread s).length (unread s) s).andThen (fun s' => .done (cursorToEnd s')) := if_neg (not_not.2 h)

/-- From an empty output, the valid items at the cursor are decompressed before what follows them is looked at. -/
theorem inflateLoop_unread {xs : List Item} {out tail : List Byte} (ho : s.olen = 0) (ha : s.allocMayFail = false)
    (hunread : unread s = xs.flatMap itemText ++ tail) (happly : applyItems [] xs = some out) :
    ∃ s' fuel, inflateLoop (unread s).length (unread s) s = inflateLoop fuel tail s' ∧ tail.length ≤ fuel ∧
      OutputBecomes s s' out := by
  have hnil : textOf .obuf s = [] := textOf_eq_nil (b := .obuf) ho
  rw [← hnil] at happly
  rw [hunread]
  exact inflateLoop_items happly (by rw [hnil]; exact fun _ h => nomatch h) ha le_rfl

end InflateWork

/-- Settles O33: after the items nothing is left, so the loop is done and the cursor goes to the end. -/
theorem inflateDecodesTheGrammar : Obligations.InflateDecodesTheGrammar := by
  intro s xs out herr ho ha hunread happly
  rw [← List.append_nil (xs.flatMap itemText)] at hunread
  obtain ⟨s', fuel, hrun, -, hout⟩ := inflateLoop_unread ho ha hunread happly
  have hwork : workOf .inflate s = .done (cursorToEnd s') := by
    rw [workOf_inflate_empty ho, hrun, inflateLoop_nil, Work.andThen_done]
  have hlen : s'.olen = out.length := by rw [← hout.text]; exact (textOf_length .obuf s').symm
  obtain ⟨hcells, -⟩ := hout.grow
  rw [lengthOf, ho] at hcells
  have hends := endOf_endsWithin .inflate s (by decide)
  refine ⟨_, exec_eq .inflate s (.inl herr), hends.idle, ?_⟩
  have hibuf := hends.ibuf (by decide)
  have hilen := hends.ilen (by decide)
  have hop := hends.sameOperands (by decide)
  have houtside := hends.outside
  rw [hwork] at hibuf hilen hop houtside ⊢
  exact ⟨hout.text, hlen, hout.rest.input.2, hibuf, hilen, hop, hout.rest.sameError_complete, houtside, hcells⟩

/-- Settles O34: after the valid items the loop raises the failing item's error, which leaves the output and the
cursor unspecified. -/
theorem inflateReportsTheFirstError : Obligations.InflateReportsTheFirstError := by
  intro s xs out tail e herr ho ha hunread happly hitem
  obtain ⟨s', fuel, hrun, hfuel, hout⟩ := inflateLoop_unread ho ha hunread happly
  rw [← hout.text] at hitem
  have hraised : inflateLoop fuel tail s' = .raised e s' := inflateLoop_itemError hitem hfuel
  have hwork : workOf .inflate s = .raised e s' := by
    rw [workOf_inflate_empty ho, hrun, hraised, Work.andThen_raised]
  have hend : endOf .inflate (workOf .inflate s) = complete (recordError e (unspecify (writeSet .inflate) s')) := by
    rw [hwork]
    rcases inflateLoop_err _ _ _ _ _ (hout.allocMayFail.trans ha) hraised with rfl | rfl | rfl | rfl <;> rfl
  have hends := endOf_endsWithin .inflate s (by decide)
  refine ⟨_, exec_eq .inflate s (.inl herr), hends.idle, ?_, hends.ibuf (by decide), hends.ilen (by decide),
    hends.sameOperands (by decide), hends.outside, ?_, ?_⟩
  · rw [hend]
    exact ⟨rfl, rfl, rfl⟩
  · rw [hend]
    exact unspecify_icur_le (writeSet .inflate) s' rfl
  · rw [hend]
    exact unspecify_olen_le (ws := writeSet .inflate) s' rfl

/-- Settles O35: the error is raised before any work and only recorded. -/
theorem inflateNeedsAnEmptyOutput : Obligations.InflateNeedsAnEmptyOutput := by
  intro s herr ho
  refine ⟨_, exec_eq .inflate s (.inl herr), ?_⟩
  rw [workOf_inflate_nonempty ho]
  exact complete_recordError_frame .outputNotEmpty s

/-- From the first cell on, the unread characters are the input's text. -/
theorem unread_eq_textOf {s : State} (h : s.icur = 0) : unread s = textOf .ibuf s := by
  rw [unread, h]
  rfl

/-- Settles O36: DEFLATE's output is a list of items that stand for the text, XFER makes it the input, and INFLATE
decodes the items. -/
theorem inflateUndoesDeflate : Obligations.InflateUndoesDeflate := by
  intro s herr ha ho hcap hwf htokens
  obtain ⟨a, hdeflate, -, -, hibuf, -, ⟨halloc, -⟩, -, hcases⟩ := deflateCompressesTheUnreadText s herr ha hcap
    fun c hc => (tokenChar_iff.1 (htokens c hc)).1
  rw [if_neg (not_not.2 ho)] at hcases
  obtain ⟨⟨herra, -⟩, htexta, -⟩ := hcases
  obtain ⟨b, hxfer, htextb, -, hicur, holen, -, -, -, ⟨herrb, -⟩, ⟨hallocb, -⟩, -⟩ :=
    xferMovesTheText a (herra.trans herr) (by rw [hibuf]; exact hwf)
  have hlen : (unread s).length ≤ Config.cap := by rw [unread_length]; omega
  obtain ⟨xs, hitems, happly⟩ := exists_items_deflateFrom htokens hlen (unread s).length 0 (Nat.zero_le _)
  have hunread : unread b = xs.flatMap itemText :=
    (unread_eq_textOf hicur).trans (htextb.trans (htexta.trans hitems))
  have herrb' : b.err = false := herrb.trans (herra.trans herr)
  obtain ⟨t, hinflate, -, htext, -, hend, -, hilen, -, ⟨herrt, -⟩, -⟩ :=
    inflateDecodesTheGrammar b xs (unread s) herrb' holen (hallocb.trans (halloc.trans ha)) hunread happly
  exact ⟨a, b, t, hdeflate, hxfer, hinflate, htext, herrt.trans herrb', hend.trans hilen.symm⟩

end Sys2Proof.Machine

/-! How a command ends: its frame, and the two inversions of `exec`, by whether an error stands after it. -/

namespace Sys2Proof.Machine

section Ends

variable {i : Instr} {s t u : State}

theorem within_of_workOf_done (h : workOf i s = .done u) (hi : i ≠ .clear) : Within (writeSet i) s u := by
  have hwithin := workOf_within i s hi
  rwa [h] at hwithin

/-- Whatever happens, a command stays within its write set and leaves the engine idle (R89). -/
theorem exec_endsWithin (h : exec i s = .next t) : EndsWithin (writeSet i) s t := by
  rcases exec_cases i s t h with ⟨_, _, rfl⟩ | ⟨_, rfl⟩
  · exact (Within.refl _ s).endsWithin_complete
  · by_cases hi : i = .clear
    · subst hi
      exact ⟨⟨rfl, rfl, rfl⟩, ⟨rfl, rfl, rfl, rfl⟩, rfl, rfl, fun _ => rfl, fun _ => rfl,
        fun h => absurd (by decide) h, fun h => absurd (by decide) h, fun _ => rfl, fun h => absurd (by decide) h⟩
    · exact endOf_endsWithin i s hi

/-- A raised error stands in `STATUS`, whether or not the write set is unspecified (R243). -/
theorem endOf_raised_errorIs (i : Instr) (e : Err) (s : State) :
    errorIs (endOf i (.raised e s)) (errCode e) (errCause e) := by
  rcases endOf_raised i e s with ⟨_, h⟩ | ⟨_, h⟩ | ⟨_, _, _, h⟩ <;> rw [h] <;> exact ⟨rfl, rfl, rfl⟩

/-- A command that ends without an error did all its work. -/
theorem exec_done (h : exec i s = .next t) (ht : t.err = false) : ∃ u, workOf i s = .done u ∧ t = complete u := by
  rcases exec_cases i s t h with ⟨herr, _, rfl⟩ | ⟨_, rfl⟩
  · exact absurd (herr.symm.trans ht) (by decide)
  · cases hw : workOf i s with
    | done u => exact ⟨u, rfl, rfl⟩
    | raised e u =>
      rw [hw, (endOf_raised_errorIs i e u).1] at ht
      cases ht

/-- A command that starts without an error and ends with one raised it. -/
theorem exec_raised (h : exec i s = .next t) (hs : s.err = false) (ht : t.err = true) :
    ∃ e u, workOf i s = .raised e u ∧ t = endOf i (.raised e u) := by
  rcases exec_cases i s t h with ⟨herr, _⟩ | ⟨_, rfl⟩
  · exact absurd (hs.symm.trans herr) (by decide)
  · cases hw : workOf i s with
    | raised e u => exact ⟨e, u, rfl, rfl⟩
    | done u =>
      have hu : u.err = false := by
        by_cases hi : i = .clear
        · subst hi; cases hw; rfl
        · exact (within_of_workOf_done hw hi).err.trans hs
      rw [hw] at ht
      exact absurd (hu.symm.trans ht) (by decide)

end Ends

/-- Settles O37: `exec_eq` and `exec_sticky` leave no other outcome. -/
theorem everyCommandCompletes : Obligations.EveryCommandCompletes := by
  intro i s
  have hnext : ∃ t, exec i s = .next t := by
    by_cases h : s.err = false ∨ i = .clear
    · exact ⟨_, exec_eq i s h⟩
    · rw [not_or, Bool.not_eq_false] at h
      exact ⟨_, exec_sticky i s h.1 h.2⟩
  obtain ⟨t, ht⟩ := hnext
  exact ⟨t, ht, (exec_endsWithin ht).idle⟩

/-- Settles O42: the frame of every end, and done work keeps the error fields unless it is CLEAR's. -/
theorem commandsKeepToTheirWriteSets : Obligations.CommandsKeepToTheirWriteSets := by
  intro i s t h
  have hends := exec_endsWithin h
  refine ⟨hends.dist, hends.len, hends.outside, hends.idle, hends.value, hends.ibuf, hends.ilen, hends.icur,
    hends.obuf, hends.olen, fun hi ht => ?_⟩
  obtain ⟨u, hw, rfl⟩ := exec_done h ht
  have hwithin := within_of_workOf_done hw hi
  exact ⟨hwithin.err, hwithin.ecode, hwithin.cause⟩

/-! Which errors a command's work can raise. -/

/-- Every error the work can raise, and the state it raises it in, are as `Q` says. -/
def Work.Raises (w : Work) (Q : Err → State → Prop) : Prop := ∀ e u, w = .raised e u → Q e u

section Raises

variable {Q Q' : Err → State → Prop} {s : State} {m : Bool}

theorem Work.raises_done (s : State) (Q : Err → State → Prop) : (Work.done s).Raises Q := fun _ _ h => nomatch h

theorem Work.raises_raised {e : Err} {s : State} (h : Q e s) : (Work.raised e s).Raises Q := by
  rintro _ _ ⟨⟩
  exact h

theorem Work.Raises.mono {w : Work} (h : w.Raises Q) (hQ : ∀ e u, Q e u → Q' e u) : w.Raises Q' :=
  fun e u hw => hQ e u (h e u hw)

theorem Work.Raises.andThen {w : Work} {k : State → Work} (h : w.Raises Q)
    (hk : ∀ s, w = .done s → (k s).Raises Q) : (w.andThen k).Raises Q := by
  intro e u hw
  rcases (Work.andThen_eq_raised w k e u).1 hw with hw | ⟨s, hs, hks⟩
  · exact h e u hw
  · exact hk s hs e u hks

/-- What an append can raise; the allocation fails only where `ALLOC_MAY_FAIL` is true (R140, R255). -/
def appendErr (m : Bool) (e : Err) : Prop := e = .tooLong ∨ e = .allocFailed ∧ m = true

/-- What a back-reference can raise (R214, R215). -/
def backrefErr (m : Bool) (e : Err) : Prop := e = .invalidBackref ∨ appendErr m e

/-- What the decompressor can raise (R210, R217). -/
def inflateErr (m : Bool) (e : Err) : Prop := e = .truncated ∨ e = .invalidNumeric ∨ backrefErr m e

theorem append_raises {b : Buffer} {c : Byte} (ha : s.allocMayFail = m) :
    (append b c s).Raises fun e _ => appendErr m e := by
  rcases append_cases b c s with ⟨_, h⟩ | ⟨_, _, h⟩ | ⟨_, _, hr, h⟩ | ⟨_, _, _, h⟩ <;> rw [h]
  · exact Work.raises_done _ _
  · exact Work.raises_raised (.inl rfl)
  · rw [allocRefused, ha, Bool.and_eq_true] at hr
    exact Work.raises_raised (.inr ⟨rfl, hr.1⟩)
  · exact Work.raises_done _ _

theorem appendText_raises {b : Buffer} {t : List Byte} (ha : s.allocMayFail = m) :
    (appendText b t s).Raises fun e _ => appendErr m e := by
  induction t generalizing s with
  | nil => exact Work.raises_done _ _
  | cons c t ih => exact (append_raises ha).andThen fun u hu => ih ((append_alloc b c s u hu).trans ha)

theorem expand_raises {d l : Nat} (ha : s.allocMayFail = m) : (expand d l s).Raises fun e _ => appendErr m e := by
  induction l generalizing s with
  | zero => exact Work.raises_done _ _
  | succ l ih => exact (append_raises ha).andThen fun u hu => ih ((append_alloc _ _ s u hu).trans ha)

theorem backref_raises {d l : Nat} (ha : s.allocMayFail = m) :
    (backref d l s).Raises fun e _ => backrefErr m e := by
  by_cases hbad : d = 0 ∨ l = 0 ∨ s.olen < d
  · rw [backref_invalid hbad]
    exact Work.raises_raised (.inl rfl)
  by_cases hcap : Config.cap < s.olen + l
  · rw [backref_tooLong hbad hcap]
    exact Work.raises_raised (.inr (.inl rfl))
  · rw [backref_expands hbad hcap]
    exact (expand_raises ha).mono fun _ _ => .inr

theorem readRef_bad {c : Byte} {t : List Byte} {e : Err} (h : readRef c t = .bad e) :
    e = .truncated ∨ e = .invalidNumeric := by
  unfold readRef at h
  split at h
  · exact readLength_bad _ (fun _ => decodeValue_bad) e h
  · exact readLength_bad _ (fun _ => nextDigits_bad) e h

theorem inflateLoop_raises {n : Nat} {t : List Byte} (ha : s.allocMayFail = m) :
    (inflateLoop n t s).Raises fun e _ => inflateErr m e := by
  induction n generalizing t s with
  | zero => exact Work.raises_done _ _
  | succ n ih =>
    cases t with
    | nil => exact Work.raises_done _ _
    | cons c t =>
      by_cases hc : c = nearMark ∨ c = farMark
      · cases hread : readRef c t with
        | bad e =>
          rw [inflateLoop_badRef hc hread]
          exact Work.raises_raised (or_assoc.1 (.inl (readRef_bad hread)))
        | ok r rest =>
          rw [inflateLoop_ref hc hread]
          exact ((backref_raises ha).mono fun _ _ h => .inr (.inr h)).andThen
            fun u hu => ih ((backref_alloc _ _ s u hu).trans ha)
      · rw [inflateLoop_literal hc]
        exact ((append_raises ha).mono fun _ _ h => .inr (.inr (.inr h))).andThen
          fun u hu => ih ((append_alloc _ _ s u hu).trans ha)

/-- A reader that ends in `VALUE` raises what it read wrong. -/
theorem readToValue_raises {p : Parsed Word} {P : Err → Prop} (hp : ∀ e, p = .bad e → P e) :
    (readToValue p s).Raises fun e _ => P e := by
  cases p with
  | bad e => exact Work.raises_raised (hp e rfl)
  | ok v rest => exact Work.raises_done _ _

end Raises

/-- The errors each command can raise when it starts in `s`, PRECONDITION in that state itself (60_exceptions.md R242,
R243). -/
def commandErr (i : Instr) (s : State) (e : Err) (u : State) : Prop :=
  match i with
  | .clear | .peek | .atend | .xfer => False
  | .iappend | .oappend => appendErr s.allocMayFail e
  | .consume => e = .truncated
  | .expand => backrefErr s.allocMayFail e
  | .venc => e = .valueRange ∧ u = s ∨ appendErr s.allocMayFail e
  | .vdec => e = .truncated ∨ e = .invalidNumeric
  | .deflate => e = .outputNotEmpty ∧ u = s ∨ appendErr s.allocMayFail e
  | .inflate => e = .outputNotEmpty ∧ u = s ∨ inflateErr s.allocMayFail e

theorem workOf_raises (i : Instr) (s : State) : (workOf i s).Raises (commandErr i s) := by
  cases i with
  | clear | peek | atend | xfer => exact Work.raises_done _ _
  | iappend | oappend => exact append_raises rfl
  | consume =>
    refine readToValue_raises fun e h => ?_
    cases hu : unread s with
    | nil => rw [hu] at h; cases h; rfl
    | cons c t => rw [hu] at h; cases h
  | expand => exact backref_raises rfl
  | venc =>
    by_cases hrange : 16777216 ≤ s.value.toNat
    · rw [workOf_venc_range hrange]
      exact Work.raises_raised (.inl ⟨rfl, rfl⟩)
    · rw [workOf_venc_append hrange]
      exact (appendText_raises rfl).mono fun _ _ => .inr
  | vdec =>
    refine readToValue_raises fun e h => ?_
    cases hread : decodeValue (unread s) with
    | ok v rest => rw [hread] at h; cases h
    | bad e' => rw [hread] at h; cases h; exact decodeValue_bad hread
  | deflate =>
    by_cases ho : s.olen = 0
    · rw [workOf_deflate_empty ho]
      exact ((appendText_raises rfl).mono fun _ _ => .inr).andThen fun _ _ => Work.raises_done _ _
    · rw [workOf_deflate_nonempty ho]
      exact Work.raises_raised (.inl ⟨rfl, rfl⟩)
  | inflate =>
    by_cases ho : s.olen = 0
    · rw [workOf_inflate_empty ho]
      exact ((inflateLoop_raises rfl).mono fun _ _ => .inr).andThen fun _ _ => Work.raises_done _ _
    · rw [workOf_inflate_nonempty ho]
      exact Work.raises_raised (.inl ⟨rfl, rfl⟩)

section ErrorKinds

variable {m : Bool} {e : Err}

theorem errPrecise_of_appendErr (h : appendErr m e) : errPrecise e = false := by
  rcases h with rfl | ⟨rfl, _⟩ <;> rfl

theorem errPrecise_of_backrefErr (h : backrefErr m e) : errPrecise e = false := by
  rcases h with rfl | h
  · rfl
  · exact errPrecise_of_appendErr h

theorem errPrecise_of_inflateErr (h : inflateErr m e) : errPrecise e = false := by
  rcases h with rfl | rfl | h
  · rfl
  · rfl
  · exact errPrecise_of_backrefErr h

variable {i : Instr} {s u : State}

/-- An error detected before any write is raised in the state the command started in (R243). -/
theorem commandErr_precise (h : commandErr i s e u) (he : errPrecise e = true) : u = s := by
  cases i with
  | clear | peek | atend | xfer => exact h.elim
  | iappend | oappend => exact absurd (he.symm.trans (errPrecise_of_appendErr h)) (by decide)
  | expand => exact absurd (he.symm.trans (errPrecise_of_backrefErr h)) (by decide)
  | consume => cases h; cases he
  | vdec => rcases h with rfl | rfl <;> cases he
  | venc | deflate =>
    rcases h with ⟨-, hu⟩ | h
    · exact hu
    · exact absurd (he.symm.trans (errPrecise_of_appendErr h)) (by decide)
  | inflate =>
    rcases h with ⟨-, hu⟩ | h
    · exact hu
    · exact absurd (he.symm.trans (errPrecise_of_inflateErr h)) (by decide)

/-- Only PRECONDITION has `ECODE` 1, and it is precise (R242, R243). -/
theorem errPrecise_of_errCode_one (h : errCode e = 1#4) : errPrecise e = true := by
  revert h; cases e <;> decide

/-- Only ALLOC_FAILED has `ECODE` 5 (R242). -/
theorem eq_allocFailed_of_errCode (h : errCode e = 5#4) : e = .allocFailed := by
  revert h; cases e <;> decide

/-- An allocation fails only in a command that appends, and only where `ALLOC_MAY_FAIL` is true (R255). -/
theorem commandErr_allocFailed (h : commandErr i s .allocFailed u) : s.allocMayFail = true ∧
    (i = .iappend ∨ i = .oappend ∨ i = .venc ∨ i = .expand ∨ i = .deflate ∨ i = .inflate) := by
  cases i with
  | clear | peek | atend | xfer => exact h.elim
  | consume => cases h
  | vdec => rcases h with h | h <;> cases h
  | iappend | oappend | expand | venc | deflate | inflate =>
    exact ⟨by simpa [commandErr, appendErr, backrefErr, inflateErr] using h, by simp⟩

end ErrorKinds

end Sys2Proof.Machine

/-! The lengths and the cells: what every command's work keeps, what a done one adds, and the errors' statements. -/

namespace Sys2Proof.Machine

section WorkKeeps

variable {P : State → Prop}

/-- What the updates a command is made of keep, its work keeps, CLEAR's apart. -/
theorem workOf_P {i : Instr} {s : State} (hi : i ≠ .clear) (happend : ∀ b c s, P s → P (append b c s).state)
    (hvalue : ∀ v s, P s → P (setValue v s)) (hcursor : ∀ n s, n ≤ s.ilen → P s → P (setCursor n s))
    (hmove : ∀ s, P s → P (moveBuffer s)) (h : P s) : P (workOf i s).state := by
  have hread : ∀ p, P (readToValue p s).state := fun p => by
    cases p with
    | bad e => exact h
    | ok v rest => exact hvalue v _ (hcursor _ s (Nat.sub_le _ _) h)
  have hend : ∀ t, P t → P (Work.done (cursorToEnd t)).state := fun t ht => hcursor _ t le_rfl ht
  cases i with
  | clear => exact absurd rfl hi
  | iappend => exact happend _ _ s h
  | oappend => exact happend _ _ s h
  | peek => exact hvalue _ s h
  | consume => exact hread _
  | atend => exact hvalue _ s h
  | expand => exact backref_P (happend .obuf) _ _ s h
  | xfer => exact hmove s h
  | venc =>
    by_cases hrange : 16777216 ≤ s.value.toNat
    · rw [workOf_venc_range hrange]; exact h
    · rw [workOf_venc_append hrange]; exact appendText_P .obuf (happend .obuf) _ s h
  | vdec => exact hread _
  | deflate =>
    by_cases ho : s.olen = 0
    · rw [workOf_deflate_empty ho]; exact andThen_P (appendText_P .obuf (happend .obuf) _ s h) hend
    · rw [workOf_deflate_nonempty ho]; exact h
  | inflate =>
    by_cases ho : s.olen = 0
    · rw [workOf_inflate_empty ho]; exact andThen_P (inflateLoop_P (happend .obuf) _ _ s h) hend
    · rw [workOf_inflate_nonempty ho]; exact h

end WorkKeeps

/-- The bounds of the lengths and the cursor (10_state.md R26, R29). -/
structure LengthsOk (s : State) : Prop where
  cursor : s.icur ≤ s.ilen
  ilen_cap : s.ilen ≤ Config.cap
  olen_cap : s.olen ≤ Config.cap

section Lengths

variable {s t : State}

theorem LengthsOk.congr (h : LengthsOk s) (hicur : t.icur = s.icur) (hilen : t.ilen = s.ilen)
    (holen : t.olen = s.olen) : LengthsOk t := by
  refine ⟨?_, hilen.trans_le h.ilen_cap, holen.trans_le h.olen_cap⟩
  rw [hicur, hilen]
  exact h.cursor

theorem append_lengthsOk (b : Buffer) (c : Byte) (s : State) (h : LengthsOk s) : LengthsOk (append b c s).state := by
  obtain ⟨hcur, hilen, holen⟩ := h
  have hasked : LengthsOk (allocAsked s) := by unfold allocAsked; split <;> exact ⟨hcur, hilen, holen⟩
  rcases append_cases b c s with ⟨_, h⟩ | ⟨_, _, h⟩ | ⟨_, _, _, h⟩ | ⟨_, hlt, _, h⟩ <;> rw [h]
  · exact ⟨hcur, hilen, holen⟩
  · exact ⟨hcur, hilen, holen⟩
  · exact hasked
  · rw [← lengthOf_allocAsked] at hlt
    obtain ⟨hcur', hilen', holen'⟩ := hasked
    cases b with
    | ibuf => exact ⟨Nat.le_succ_of_le hcur', hlt, holen'⟩
    | obuf => exact ⟨hcur', hilen', hlt⟩

theorem workOf_lengthsOk {i : Instr} (hi : i ≠ .clear) (h : LengthsOk s) : LengthsOk (workOf i s).state :=
  workOf_P hi append_lengthsOk (fun _ _ h => h.congr rfl rfl rfl)
    (fun _ _ hn h => ⟨hn, h.ilen_cap, h.olen_cap⟩) (fun _ h => ⟨Nat.zero_le _, h.olen_cap, Nat.zero_le _⟩) h

/-- What an error leaves unspecified keeps the bounds (R243). -/
theorem unspecify_lengthsOk (ws : List Element) (h : LengthsOk s) : LengthsOk (unspecify ws s) := by
  obtain ⟨hcur, hilen, holen⟩ := unspecify_bounds ws s h.cursor h.ilen_cap h.olen_cap
  exact ⟨hcur, hilen, holen⟩

theorem endOf_raised_lengthsOk {i : Instr} {e : Err} (h : LengthsOk s) : LengthsOk (endOf i (.raised e s)) := by
  rcases endOf_raised i e s with ⟨_, hend⟩ | ⟨_, hend⟩ | ⟨_, _, _, hend⟩ <;> rw [hend]
  · exact h.congr rfl rfl rfl
  · exact (unspecify_lengthsOk (writeSet i) h).congr rfl rfl rfl
  · exact h.congr rfl rfl rfl

end Lengths

/-- Settles O39: the frame is the write set's; PRECONDITION is raised in the starting state and only recorded. -/
theorem errorKeepsWhatIsOutsideTheWriteSet : Obligations.ErrorKeepsWhatIsOutsideTheWriteSet := by
  intro i s t h hs ht
  have hends := exec_endsWithin h
  obtain ⟨e, u, hwork, rfl⟩ := exec_raised h hs ht
  have hi : i ≠ .clear := by rintro rfl; cases hwork
  refine ⟨hends.outside, hends.idle, hends.dist, hends.len, fun hcode => ?_, hends.value, hends.ibuf, hends.ilen,
    hends.icur, hends.obuf, hends.olen, fun hcur hilen holen => ?_⟩
  · rw [(endOf_raised_errorIs i e u).2.1] at hcode
    have hprecise := errPrecise_of_errCode_one hcode
    obtain rfl := commandErr_precise (workOf_raises i s e u hwork) hprecise
    rcases endOf_raised i e u with ⟨_, hend⟩ | ⟨himprecise, _⟩ | ⟨_, rfl, _⟩
    · obtain ⟨-, -, hop, hin, hout, -⟩ := complete_recordError_frame e u
      rw [hend]
      exact ⟨hop, hin, hout⟩
    · exact absurd (hprecise.symm.trans himprecise) (by decide)
    · cases hprecise
  · have hok := workOf_lengthsOk hi ⟨hcur, hilen, holen⟩
    rw [hwork] at hok
    obtain ⟨hcur', hilen', holen'⟩ := endOf_raised_lengthsOk (i := i) (e := e) hok
    exact ⟨hcur', hilen', holen'⟩

section Errors

variable {b : Buffer} {s : State} {t : List Byte}

/-- With room for all its characters and no failed allocation, a text is appended, whatever is discarded of it. -/
theorem appendText_done (hl : lengthOf b s + t.length ≤ Config.cap) (ha : s.allocMayFail = false) :
    ∃ s', appendText b t s = .done s' := by
  induction t generalizing s with
  | nil => exact ⟨s, rfl⟩
  | cons c t ih =>
    rw [List.length_cons] at hl
    by_cases hc : keep c = true
    · rw [appendText, append_kept b c s hc (by omega) ha]
      exact ih (by rw [lengthOf_storeChar]; omega) ((storeChar_allocMayFail b c s).trans ha)
    · rw [appendText, append, if_pos (Bool.eq_false_iff.2 hc)]
      exact ih (by omega) ha

/-- DEFLATE's output fits wherever its input did, so only a non-empty output stops it (43_deflate.md R180). -/
theorem workOf_deflate_raised {e : Err} {u : State} (h : workOf .deflate s = .raised e u)
    (ha : s.allocMayFail = false) (hcap : s.ilen ≤ Config.cap) : e = .outputNotEmpty := by
  by_cases ho : s.olen = 0
  · have hfits : lengthOf .obuf s + (deflate (unread s)).length ≤ Config.cap := by
      rw [lengthOf, ho, Nat.zero_add]
      exact deflate_unread_length_le hcap
    obtain ⟨s', hdone⟩ := appendText_done hfits ha
    rw [workOf_deflate_empty ho, hdone] at h
    cases h
  · rw [workOf_deflate_nonempty ho] at h
    cases h
    rfl

theorem appendErr_never {e : Err} (h : appendErr false e) : e = .tooLong := by
  rcases h with h | ⟨-, h⟩
  · exact h
  · cases h

end Errors

/-- Settles O40: the pair of each error `commandErr` lists for the command. -/
theorem eachCommandRaisesItsOwnErrors : Obligations.EachCommandRaisesItsOwnErrors := by
  intro i s t h hs ht ha hcap
  obtain ⟨e, u, hwork, rfl⟩ := exec_raised h hs ht
  have hraises := workOf_raises i s e u hwork
  have hpair := endOf_raised_errorIs i e u
  cases i with
  | clear | peek | atend | xfer => exact hraises.elim
  | iappend | oappend =>
    simp only [commandErr, ha] at hraises
    obtain rfl := appendErr_never hraises
    exact hpair
  | consume =>
    cases hraises
    exact hpair
  | expand =>
    simp only [commandErr, ha] at hraises
    rcases hraises with rfl | hraises
    · exact .inl hpair
    · obtain rfl := appendErr_never hraises
      exact .inr hpair
  | venc =>
    simp only [commandErr, ha] at hraises
    rcases hraises with ⟨rfl, -⟩ | hraises
    · exact .inl hpair
    · obtain rfl := appendErr_never hraises
      exact .inr hpair
  | vdec =>
    rcases hraises with rfl | rfl
    · exact .inr hpair
    · exact .inl hpair
  | deflate =>
    obtain rfl := workOf_deflate_raised hwork ha hcap
    exact hpair
  | inflate =>
    simp only [commandErr, ha] at hraises
    rcases hraises with ⟨rfl, -⟩ | rfl | rfl | rfl | hraises
    · exact .inl hpair
    · exact .inr (.inr (.inr (.inl hpair)))
    · exact .inr (.inl hpair)
    · exact .inr (.inr (.inl hpair))
    · obtain rfl := appendErr_never hraises
      exact .inr (.inr (.inr (.inr hpair)))

section Allocation

variable {b : Buffer} {c : Byte} {s : State}

theorem textOf_allocAsked (b : Buffer) (s : State) : textOf b (allocAsked s) = textOf b s := by
  rw [textOf, cellsOf_allocAsked, lengthOf_allocAsked, textOf]

/-- Where `ALLOC_MAY_FAIL` is true, the draw alone says whether a kept append below the ceiling fails (R255). -/
theorem append_draw (ha : s.allocMayFail = true) (hc : keep c = true) (hl : lengthOf b s < Config.cap) :
    append b c s = if Config.allocFails s.draws = true then .raised .allocFailed (allocAsked s)
      else .done (storeChar b c (allocAsked s)) := by
  rw [append, if_neg (by simp [hc]), if_neg (by omega), allocRefused, ha, Bool.true_and]

/-- An append command then ends with ALLOC_FAILED, or with the character stored. -/
theorem exec_appendCommand_draw (herr : s.err = false) (ha : s.allocMayFail = true)
    (hc : keep (s.value.setWidth 8) = true) (hl : lengthOf b s < Config.cap) :
    ∃ t, exec (appendCommand b) s = .next t ∧ EndsWithin (writeSet (appendCommand b)) s t ∧
      if Config.allocFails s.draws = true then errorIs t 5#4 0#4
      else sameError s t ∧ textOf b t = textOf b s ++ [s.value.setWidth 8] ∧ lengthOf b t = lengthOf b s + 1 := by
  refine ⟨_, exec_eq _ s (.inl herr), endOf_endsWithin _ s (by cases b <;> decide), ?_⟩
  rw [workOf_appendCommand, append_draw ha hc hl]
  split_ifs
  · exact endOf_raised_errorIs _ _ _
  · have hrest := (KeepsRest.allocAsked b s).trans (.storeChar b (s.value.setWidth 8) _)
    refine ⟨hrest.sameError_complete, ?_, ?_⟩
    · rw [endOf, textOf_complete, textOf_storeChar _ _ _ (ne_zero_of_keep hc), textOf_allocAsked]
    · rw [endOf, lengthOf_complete, lengthOf_storeChar, lengthOf_allocAsked]

end Allocation

/-- Settles O41: ECODE 5 is ALLOC_FAILED alone, which only an append raises, by the draw `append_draw` names. -/
theorem allocationFailsOnlyByDraw : Obligations.AllocationFailsOnlyByDraw := by
  have hcode : ∀ (i : Instr) (s t : State), exec i s = .next t → s.err = false → t.err = true → t.ecode = 5#4 →
      t.cause = 0#4 ∧ ∃ u, commandErr i s .allocFailed u := by
    intro i s t h hs ht h5
    obtain ⟨e, u, hwork, rfl⟩ := exec_raised h hs ht
    obtain ⟨-, hecode, hcause⟩ := endOf_raised_errorIs i e u
    obtain rfl := eq_allocFailed_of_errCode (hecode.symm.trans h5)
    exact ⟨hcause, u, workOf_raises i s _ u hwork⟩
  refine ⟨fun i s t h ha hs => ?_, fun b c s ha hc hl => ?_, fun s herr ha hc hl => ?_, fun s herr ha hc hl => ?_,
    fun i s t h hs ht => ?_⟩
  · by_contra hboth
    rw [not_or, not_not, Bool.not_eq_false] at hboth
    obtain ⟨-, u, hu⟩ := hcode i s t h hs hboth.2 hboth.1
    exact absurd ((commandErr_allocFailed hu).1.symm.trans ha) (by decide)
  · rw [append_draw ha hc hl]
    split_ifs
    · exact ⟨_, rfl, cellsOf_allocAsked b s, lengthOf_allocAsked b s⟩
    · exact ⟨_, rfl, by rw [textOf_storeChar _ _ _ (ne_zero_of_keep hc), textOf_allocAsked]⟩
  · obtain ⟨t, hexec, hends, hcases⟩ := exec_appendCommand_draw (b := .ibuf) herr ha hc hl
    exact ⟨t, hexec, hends.idle, hends.sameOperands (by decide), hends.sameOutput (by decide) (by decide),
      hends.outside, hends.icur (by decide), hcases⟩
  · obtain ⟨t, hexec, hends, hcases⟩ := exec_appendCommand_draw (b := .obuf) herr ha hc hl
    exact ⟨t, hexec, hends.idle, hends.sameOperands (by decide),
      hends.sameInput (by decide) (by decide) (by decide), hends.outside, hcases⟩
  · by_cases h5 : t.ecode = 5#4
    · obtain ⟨hcause, u, hu⟩ := hcode i s t h hs ht h5
      exact .inr ⟨hcause, (commandErr_allocFailed hu).2⟩
    · exact .inl h5

section Growth

variable {i : Instr} {b : Buffer} {s u : State}

/-- A buffer whose cells and length are the same has grown by nothing. -/
theorem CellsGrow.of_eq (hcells : cellsOf b u = cellsOf b s) (hlen : lengthOf b u = lengthOf b s) : CellsGrow b s u :=
  ⟨fun a _ => by rw [hcells], hlen.ge⟩

theorem cursorToEnd_grow (s : State) : CellsGrow .obuf s (cursorToEnd s) := .of_eq rfl rfl

/-- Done work stores only into the cells its buffers grew by, CLEAR's and XFER's apart (42_buffer.md R140). -/
theorem workOf_grow (h : workOf i s = .done u) (hc : i ≠ .clear) (hx : i ≠ .xfer) :
    CellsGrow .ibuf s u ∧ CellsGrow .obuf s u := by
  have hwithin := within_of_workOf_done h hc
  have hibuf (hb : Element.ibuf ∉ writeSet i) (hl : Element.ilen ∉ writeSet i) : CellsGrow .ibuf s u :=
    .of_eq (hwithin.ibuf hb) (hwithin.ilen hl)
  have hobuf (hb : Element.obuf ∉ writeSet i) (hl : Element.olen ∉ writeSet i) : CellsGrow .obuf s u :=
    .of_eq (hwithin.obuf hb) (hwithin.olen hl)
  cases i with
  | clear => exact absurd rfl hc
  | xfer => exact absurd rfl hx
  | peek | consume | atend | vdec => exact ⟨hibuf (by decide) (by decide), hobuf (by decide) (by decide)⟩
  | iappend => exact ⟨append_cells .ibuf _ s u h, hobuf (by decide) (by decide)⟩
  | oappend => exact ⟨hibuf (by decide) (by decide), append_cells .obuf _ s u h⟩
  | expand => exact ⟨hibuf (by decide) (by decide), backref_grow _ _ s u h⟩
  | venc =>
    refine ⟨hibuf (by decide) (by decide), ?_⟩
    by_cases hrange : 16777216 ≤ s.value.toNat
    · rw [workOf_venc_range hrange] at h; cases h
    · rw [workOf_venc_append hrange] at h; exact appendText_grow .obuf _ s u h
  | deflate =>
    refine ⟨hibuf (by decide) (by decide), ?_⟩
    by_cases ho : s.olen = 0
    · rw [workOf_deflate_empty ho] at h
      exact andThen_grow h (appendText_grow .obuf _ s) fun v hv => by cases hv; exact cursorToEnd_grow v
    · rw [workOf_deflate_nonempty ho] at h; cases h
  | inflate =>
    refine ⟨hibuf (by decide) (by decide), ?_⟩
    by_cases ho : s.olen = 0
    · rw [workOf_inflate_empty ho] at h
      exact andThen_grow h (inflateLoop_grow _ _ s) fun v hv => by cases hv; exact cursorToEnd_grow v
    · rw [workOf_inflate_nonempty ho] at h; cases h

/-- A read moves the cursor forward by what it used. -/
theorem readToValue_icur {p : Parsed Word} (h : readToValue p s = .done u)
    (hp : ∀ v rest, p = .ok v rest → rest.length ≤ (unread s).length) (hle : s.icur ≤ s.ilen) :
    s.icur ≤ u.icur := by
  cases p with
  | bad e => cases h
  | ok v rest =>
    cases h
    have hshort := hp v rest rfl
    rw [unread_length] at hshort
    have hcur : (setValue v (cursorAt rest s)).icur = s.ilen - rest.length := rfl
    omega

/-- DEFLATE and INFLATE use the input up (43_deflate.md R180, 44_inflate.md R211). -/
theorem workOf_cursorToEnd (hi : i = .deflate ∨ i = .inflate) (h : workOf i s = .done u) : u.icur = u.ilen := by
  have hend : ∀ w : Work, w.andThen (fun s' => .done (cursorToEnd s')) = .done u → u.icur = u.ilen := by
    intro w hw
    obtain ⟨v, -, hv⟩ := (Work.andThen_eq_done _ _ _).1 hw
    cases hv
    rfl
  rcases hi with rfl | rfl <;> by_cases ho : s.olen = 0
  · exact hend _ ((workOf_deflate_empty ho).symm.trans h)
  · cases (workOf_deflate_nonempty ho).symm.trans h
  · exact hend _ ((workOf_inflate_empty ho).symm.trans h)
  · cases (workOf_inflate_nonempty ho).symm.trans h

/-- Done work moves the cursor to no earlier place, CLEAR's and XFER's apart (42_buffer.md R150). -/
theorem workOf_icur_le (h : workOf i s = .done u) (hc : i ≠ .clear) (hx : i ≠ .xfer) (hle : s.icur ≤ s.ilen) :
    s.icur ≤ u.icur := by
  have hwithin := within_of_workOf_done h hc
  cases i with
  | clear => exact absurd rfl hc
  | xfer => exact absurd rfl hx
  | iappend | oappend | peek | atend | expand | venc => exact (hwithin.icur (by decide)).ge
  | consume =>
    refine readToValue_icur h (fun v rest hp => ?_) hle
    cases hu : unread s with
    | nil => rw [hu] at hp; cases hp
    | cons c t => rw [hu] at hp; cases hp; exact Nat.le_succ _
  | vdec =>
    refine readToValue_icur h (fun v rest hp => ?_) hle
    cases hread : decodeValue (unread s) with
    | ok w rest' => rw [hread] at hp; cases hp; exact (decodeValue_shorter hread).le
    | bad e => rw [hread] at hp; cases hp
  | deflate =>
    rw [workOf_cursorToEnd (.inl rfl) h, hwithin.ilen (by decide)]
    exact hle
  | inflate =>
    rw [workOf_cursorToEnd (.inr rfl) h, hwithin.ilen (by decide)]
    exact hle

end Growth

/-- Settles O43: `workOf_grow`; XFER stores the old output's text from cell 0 on. -/
theorem successfulCommandsStoreOnlyNewCells : Obligations.SuccessfulCommandsStoreOnlyNewCells := by
  intro i s t h ht
  obtain ⟨u, hwork, rfl⟩ := exec_done h ht
  cases i with
  | clear => cases hwork; exact ⟨rfl, rfl⟩
  | xfer =>
    cases hwork
    have hlen : (textOf .obuf s).length = s.olen := textOf_length .obuf s
    exact ⟨fun a ha => Memory.read_storeText_outside _ _ _ _ (by omega), rfl⟩
  | iappend | oappend | peek | consume | atend | expand | venc | vdec | deflate | inflate =>
    obtain ⟨⟨hibuf, -⟩, hobuf, -⟩ := workOf_grow hwork (by decide) (by decide)
    exact ⟨hibuf, hobuf⟩

/-- Settles O44: the lengths by `workOf_grow`, the cursor by `workOf_icur_le`. -/
theorem cursorAndLengthsOnlyAdvance : Obligations.CursorAndLengthsOnlyAdvance := by
  intro i s t h ht hc hx hle
  obtain ⟨u, hwork, rfl⟩ := exec_done h ht
  obtain ⟨⟨-, hilen⟩, -, holen⟩ := workOf_grow hwork hc hx
  have hicur : s.icur ≤ u.icur := workOf_icur_le hwork hc hx hle
  exact ⟨hicur, hilen, holen⟩

end Sys2Proof.Machine

/-! The invariant of the block: what a command's work and its end keep of it, what a host event keeps, and each step. -/

namespace Sys2Proof.Machine

/-- Both buffers' cells are in canonical form and are cells the buffer has (log 12). -/
def CellsOk (s : State) : Prop := ∀ b, (cellsOf b s).wf = true ∧ (cellsOf b s).bounded = true

theorem CellsOk.congr {s t : State} (h : CellsOk s) (hibuf : t.ibuf = s.ibuf) (hobuf : t.obuf = s.obuf) : CellsOk t
  | .ibuf => by rw [cellsOf, hibuf]; exact h .ibuf
  | .obuf => by rw [cellsOf, hobuf]; exact h .obuf

/-- Both buffers hold kept characters only (10_state.md R26, R29). -/
def TextsKept (s : State) : Prop := ∀ b, ∀ c ∈ textOf b s, keep c = true

/-- The invariant of the buffers while no error stands. -/
structure BuffersInv (s : State) : Prop where
  lengths : LengthsOk s
  cells : CellsOk s
  kept : TextsKept s

section Buffers

variable {s t : State}

theorem BlockInv.lengthsOk (h : BlockInv s) : LengthsOk s := ⟨h.cursor, h.ilen_cap, h.olen_cap⟩

theorem BlockInv.cellsOk (h : BlockInv s) : CellsOk s
  | .ibuf => h.ibuf_wf
  | .obuf => h.obuf_wf

theorem BlockInv.textsKept (h : BlockInv s) (herr : s.err = false) : TextsKept s
  | .ibuf => (h.kept herr).1
  | .obuf => (h.kept herr).2

theorem BlockInv.buffersInv (h : BlockInv s) (herr : s.err = false) : BuffersInv s :=
  ⟨h.lengthsOk, h.cellsOk, h.textsKept herr⟩

/-- The buffers' invariant speaks of the cells and the lengths alone. -/
theorem BuffersInv.congr (h : BuffersInv s) (hcells : ∀ b, cellsOf b t = cellsOf b s)
    (hlen : ∀ b, lengthOf b t = lengthOf b s) (hcur : t.icur ≤ t.ilen) : BuffersInv t := by
  obtain ⟨⟨-, hilen, holen⟩, hok, hkept⟩ := h
  refine ⟨⟨hcur, (hlen .ibuf).trans_le hilen, (hlen .obuf).trans_le holen⟩, fun b => ?_, fun b => ?_⟩
  · rw [hcells b]
    exact hok b
  · rw [textOf, hcells b, hlen b]
    exact hkept b

theorem allocAsked_buffersInv (h : BuffersInv s) : BuffersInv (allocAsked s) :=
  h.congr (fun b => cellsOf_allocAsked b s) (fun b => lengthOf_allocAsked b s)
    (by unfold allocAsked; split <;> exact h.lengths.cursor)

/-- A store into one buffer leaves the other alone. -/
theorem storeChar_other {b b' : Buffer} (h : b' ≠ b) (c : Byte) (s : State) :
    cellsOf b' (storeChar b c s) = cellsOf b' s ∧ textOf b' (storeChar b c s) = textOf b' s := by
  cases b <;> cases b'
  case ibuf.ibuf | obuf.obuf => exact absurd rfl h
  case ibuf.obuf | obuf.ibuf => exact ⟨rfl, rfl⟩

theorem storeChar_buffersInv {b : Buffer} {c : Byte} (hlen : LengthsOk (storeChar b c s)) (hc : keep c = true)
    (hl : lengthOf b s < Config.cap) (h : BuffersInv s) : BuffersInv (storeChar b c s) := by
  refine ⟨hlen, fun b' => ?_, fun b' => ?_⟩
  · by_cases hb : b' = b
    · subst hb
      rw [cellsOf_storeChar]
      exact ⟨Memory.wf_write _ _ _ (h.cells b').1, Memory.bounded_write _ _ _ hl (h.cells b').2⟩
    · rw [(storeChar_other hb c s).1]
      exact h.cells b'
  · by_cases hb : b' = b
    · subst hb
      rw [textOf_storeChar b' c s (ne_zero_of_keep hc)]
      intro x hx
      rcases List.mem_append.1 hx with hx | hx
      · exact h.kept b' x hx
      · rw [List.mem_singleton.1 hx]; exact hc
    · rw [(storeChar_other hb c s).2]
      exact h.kept b'

theorem append_buffersInv (b : Buffer) (c : Byte) (s : State) (h : BuffersInv s) :
    BuffersInv (append b c s).state := by
  have hlen := append_lengthsOk b c s h.lengths
  rcases append_cases b c s with ⟨_, h'⟩ | ⟨_, _, h'⟩ | ⟨_, _, _, h'⟩ | ⟨hc, hl, _, h'⟩ <;> rw [h'] at hlen ⊢
  · exact h
  · exact h
  · exact allocAsked_buffersInv h
  · exact storeChar_buffersInv hlen hc (by rwa [lengthOf_allocAsked]) (allocAsked_buffersInv h)

/-- XFER moves a kept text into the first cells of `IBUF` (42_buffer.md R149). -/
theorem moveBuffer_buffersInv (s : State) (h : BuffersInv s) : BuffersInv (moveBuffer s) := by
  obtain ⟨⟨-, -, holen⟩, hok, hkept⟩ := h
  have hlen : (textOf .obuf s).length = s.olen := textOf_length .obuf s
  have htext : textOf .ibuf (moveBuffer s) = textOf .obuf s := by
    have := Memory.slice_storeText s.ibuf 0 (textOf .obuf s) (hok .ibuf).1
    rwa [hlen] at this
  refine ⟨⟨Nat.zero_le _, holen, Nat.zero_le _⟩, fun b => ?_, fun b => ?_⟩
  · cases b with
    | ibuf => exact ⟨Memory.wf_storeText _ _ _ (hok .ibuf).1, Memory.bounded_storeText _ _ _ (by omega) (hok .ibuf).2⟩
    | obuf => exact hok .obuf
  · cases b with
    | ibuf => rw [htext]; exact hkept .obuf
    | obuf => exact fun _ hc => nomatch hc

/-- A command's work keeps the buffers' invariant, where it stops too. -/
theorem workOf_buffersInv {i : Instr} (hi : i ≠ .clear) (h : BuffersInv s) : BuffersInv (workOf i s).state :=
  workOf_P hi append_buffersInv
    (fun _ _ h => h.congr (fun b => by cases b <;> rfl) (fun b => by cases b <;> rfl) h.lengths.cursor)
    (fun _ _ hn h => h.congr (fun b => by cases b <;> rfl) (fun b => by cases b <;> rfl) hn) moveBuffer_buffersInv h

end Buffers

section CommandEnds

variable {i : Instr} {e : Err} {s t : State}

/-- A completed command meets the block's invariant where its buffers and its STATUS do. -/
theorem blockInv_complete (hlen : LengthsOk s) (hok : CellsOk s) (hstatus : statusLegal s = true)
    (hkept : s.err = false → TextsKept s) : BlockInv (complete s) :=
  ⟨hok .ibuf, hok .obuf, hlen.cursor, hlen.ilen_cap, hlen.olen_cap, hstatus,
    fun herr => ⟨hkept herr .ibuf, hkept herr .obuf⟩, fun _ => ⟨rfl, rfl⟩⟩

/-- After an error the characters are free, so the cells and the lengths decide. -/
theorem blockInv_complete_recordError (e : Err) (hlen : LengthsOk s) (hok : CellsOk s) :
    BlockInv (complete (recordError e s)) :=
  blockInv_complete (hlen.congr rfl rfl rfl) (hok.congr rfl rfl) (statusLegal_recordError e s) fun herr => nomatch herr

/-- What an error leaves unspecified stays within the buffers' cells and bounds (R243). -/
theorem unspecify_cellsOk (ws : List Element) (hlen : LengthsOk s) (hok : CellsOk s) : CellsOk (unspecify ws s) := by
  obtain ⟨-, hilen, holen⟩ := unspecify_lengthsOk ws hlen
  intro b
  cases b with
  | ibuf =>
    rw [cellsOf, unspecify_ibuf]
    split_ifs
    · exact ⟨freeCells_wf _ _, freeCells_bounded _ _ hilen⟩
    · exact hok .ibuf
  | obuf =>
    rw [cellsOf, unspecify_obuf]
    split_ifs
    · exact ⟨freeCells_wf _ _, freeCells_bounded _ _ holen⟩
    · exact hok .obuf

theorem endOf_raised_blockInv (i : Instr) (e : Err) (hlen : LengthsOk s) (hok : CellsOk s) :
    BlockInv (endOf i (.raised e s)) := by
  rcases endOf_raised i e s with ⟨_, h⟩ | ⟨_, h⟩ | ⟨_, _, _, h⟩ <;> rw [h]
  · exact blockInv_complete_recordError e hlen hok
  · exact blockInv_complete_recordError e (unspecify_lengthsOk _ hlen) (unspecify_cellsOk _ hlen hok)
  · exact blockInv_complete_recordError e (hlen.congr rfl rfl rfl) (hok.congr rfl rfl)

/-- CLEAR leaves two empty texts and no error (42_buffer.md R141). -/
theorem clear_blockInv (h : BlockInv s) : BlockInv (complete (clearError (emptyBuffers s))) :=
  blockInv_complete ⟨le_rfl, Nat.zero_le _, Nat.zero_le _⟩ (h.cellsOk.congr rfl rfl)
    (statusLegal_clearError _) fun _ => fun | .ibuf => fun _ hc => nomatch hc | .obuf => fun _ hc => nomatch hc

/-- Every command keeps the invariant: CLEAR restores it, an error standing stops the others, their work keeps it. -/
theorem exec_blockInv (hinv : BlockInv s) (h : exec i s = .next t) : BlockInv t := by
  by_cases hi : i = .clear
  · subst hi
    cases h
    exact clear_blockInv hinv
  rcases exec_cases i s t h with ⟨_, _, rfl⟩ | ⟨herr, rfl⟩
  · exact blockInv_complete hinv.lengthsOk hinv.cellsOk hinv.status hinv.textsKept
  · have hbuffers := workOf_buffersInv hi (hinv.buffersInv (herr.resolve_right hi))
    cases hw : workOf i s with
    | done u =>
      rw [hw] at hbuffers
      have hwithin := within_of_workOf_done hw hi
      have hlegal := (statusLegal_congr hwithin.err hwithin.ecode hwithin.cause).trans hinv.status
      exact blockInv_complete hbuffers.lengths hbuffers.cells hlegal fun _ => hbuffers.kept
    | raised e u =>
      rw [hw] at hbuffers
      exact endOf_raised_blockInv i e hbuffers.lengths hbuffers.cells

/-- So does any word the engine performs, legal or not. -/
theorem runCommand_blockInv (hinv : BlockInv s) (h : runCommand s = .next t) : BlockInv t := by
  rw [runCommand] at h
  split at h
  · exact exec_blockInv hinv h
  · rename_i e _
    cases herr : s.err with
    | true =>
      simp only [illegalCommand, performed_err _ _ herr] at h
      cases h
      exact blockInv_complete hinv.lengthsOk hinv.cellsOk hinv.status hinv.textsKept
    | false =>
      simp only [illegalCommand, performed_ok _ _ herr] at h
      cases h
      exact blockInv_complete_recordError _ hinv.lengthsOk hinv.cellsOk

end CommandEnds

/-- Settles O46: the buffers are empty, no error stands, and the engine is idle. -/
theorem invariantHoldsAtReset : Obligations.InvariantHoldsAtReset :=
  ⟨⟨rfl, rfl⟩, ⟨rfl, rfl⟩, le_rfl, Nat.zero_le _, Nat.zero_le _, rfl,
    fun _ => ⟨fun _ hc => (nomatch hc), fun _ hc => (nomatch hc)⟩, fun _ => ⟨rfl, rfl⟩⟩

section HostEvents

variable {s t : State}

/-- The invariant speaks of the error fields, the buffers and an idle engine alone. -/
theorem BlockInv.congr (h : BlockInv s) (herr : sameError s t) (hin : sameInput s t) (hout : sameOutput s t)
    (hidle : t.busy = false → t.cmd = 0#32 ∧ t.wait = 0) : BlockInv t := by
  obtain ⟨herr, hecode, hcause⟩ := herr
  obtain ⟨hibuf, hilen, hicur⟩ := hin
  obtain ⟨hobuf, holen⟩ := hout
  refine ⟨?_, ?_, ?_, ?_, ?_, (statusLegal_congr herr hecode hcause).trans h.status, ?_, hidle⟩
  · rw [hibuf]; exact h.ibuf_wf
  · rw [hobuf]; exact h.obuf_wf
  · rw [hicur, hilen]; exact h.cursor
  · rw [hilen]; exact h.ilen_cap
  · rw [holen]; exact h.olen_cap
  · simp only [textOf, cellsOf, lengthOf, herr, hibuf, hilen, hobuf, holen]
    exact h.kept

/-- Taking an event and serving an agent; an idle engine lets no access pass and goes on letting none pass. -/
theorem turn_blockInv (hinv : BlockInv s) (a : Option Nat) (rest : List HostEvent) :
    BlockInv (serve a (takeEvent rest s)) := by
  refine hinv.congr ⟨rfl, rfl, rfl⟩ ⟨rfl, rfl, rfl⟩ ⟨rfl, rfl⟩ fun hb => ?_
  obtain ⟨hcmd, hwait⟩ := hinv.idle hb
  exact ⟨hcmd, Nat.sub_eq_zero_of_le (hwait.trans_le (Nat.zero_le _))⟩

theorem read_blockInv (hinv : BlockInv s) (r : Reply) : BlockInv (pushReply r (drawnRead s)) := by
  rw [drawnRead_eq]
  exact hinv.congr ⟨rfl, rfl, rfl⟩ ⟨rfl, rfl, rfl⟩ ⟨rfl, rfl⟩ hinv.idle

/-- A register write keeps the invariant; the one of `CMD` makes the engine busy. -/
theorem writeRegister_blockInv (hinv : BlockInv s) (r : Option Reg) (v : Word) : BlockInv (writeRegister r v s) := by
  obtain ⟨herr, hin, hout, -⟩ := writeRegister_frame r v s
  refine hinv.congr herr hin hout fun hb => ?_
  unfold writeRegister at hb ⊢
  split at hb
  · cases hb
  all_goals exact hinv.idle hb

theorem writeAt_blockInv (hinv : BlockInv s) (a : Addr) (v : Word) : BlockInv (writeAt a v s) := by
  unfold writeAt
  split
  · exact hinv
  · split
    · exact writeRegister_blockInv hinv _ v
    · exact hinv
    · exact hinv

theorem busAccess_blockInv {op : BusOp} (hinv : BlockInv s) (h : busAccess op s = .next t) : BlockInv t := by
  unfold busAccess at h
  split at h
  · cases h
  · split at h <;> cases h
    · exact read_blockInv hinv _
    · exact writeAt_blockInv hinv _ _

theorem pollOnce_blockInv {ag : Nat} (hinv : BlockInv s) (h : pollOnce ag s = .next t) : BlockInv t := by
  unfold pollOnce at h
  have hread := read_blockInv hinv (.word (readRegister (some .status) s))
  split at h <;> cases h
  · exact hread.congr ⟨rfl, rfl, rfl⟩ ⟨rfl, rfl, rfl⟩ ⟨rfl, rfl⟩ hread.idle
  · exact hread

/-- Every host event keeps the invariant. -/
theorem hostEvent_blockInv {e : HostEvent} {rest : List HostEvent} (hinv : BlockInv s)
    (h : hostEvent e (takeEvent rest s) = .next t) : BlockInv t := by
  cases e with
  | access ag op => exact busAccess_blockInv (turn_blockInv hinv _ rest) (admit_next ag _ _ t h).2
  | poll ag => exact pollOnce_blockInv (turn_blockInv hinv _ rest) (admit_next ag _ _ t h).2
  | handOver => cases h; exact turn_blockInv hinv none rest
  | reset =>
    cases h
    exact invariantHoldsAtReset.congr ⟨rfl, rfl, rfl⟩ ⟨rfl, rfl, rfl⟩ ⟨rfl, rfl⟩ fun _ => ⟨rfl, rfl⟩

end HostEvents

/-- Settles O47: a step is a word performed, a wait, or a host event. -/
theorem everyStepKeepsTheInvariant : Obligations.EveryStepKeepsTheInvariant := by
  intro s t hinv h
  obtain ⟨-, ⟨_, hrun⟩ | ⟨_, _, rfl⟩ | ⟨e, rest, _, hevent⟩⟩ := step_cases s t h
  · exact runCommand_blockInv hinv hrun
  · exact hinv
  · exact hostEvent_blockInv hinv hevent

end Sys2Proof.Machine
